-- ==== Sys2Proof/Word.lean ====
section
/-! DEFINITION. The two word types of the block: bytes and 32-bit command and response words. -/

namespace Sys2Proof

/-- A byte, `u8` of 00_scope.md section 4: every buffer entry, register, queue entry and operand. -/
abbrev Byte := BitVec 8

/-- A 32-bit word: a command (30_encoding.md R45) or a response (R46). -/
abbrev Word := BitVec 32

end Sys2Proof
end

