-- ==== Sys2Proof/Syntax.lean ====
section
/-! DEFINITION. The thirteen commands of the block, one constructor per row of spec/opcode_table.json. -/

namespace Sys2Proof

/-- A command of the block (30_encoding.md R47). Every operand is an unsigned byte used as is (R45).
A field the opcode map marks 0 is no operand: a word that holds anything else there is no command (R48). -/
inductive Instr where
  /-- NOP (R89). -/
  | nop
  /-- TXWR addr, data (R86). -/
  | txwr (addr data : Byte)
  /-- TXRD addr (R87). -/
  | txrd (addr : Byte)
  /-- RXRD addr (R88). -/
  | rxrd (addr : Byte)
  /-- SEND len, id (R69). -/
  | send (len id : Byte)
  /-- SERVICE (R72). -/
  | service
  /-- RDREG sel (R90). -/
  | rdreg (sel : Byte)
  /-- CRCTAB index (R57). -/
  | crctab (index : Byte)
  /-- CRCEVAL acc, byte (R58). -/
  | crceval (acc byte : Byte)
  /-- CRCTX len (R59). -/
  | crctx (len : Byte)
  /-- CRCRX len (R60). -/
  | crcrx (len : Byte)
  /-- OVH len (R67). -/
  | ovh (len : Byte)
  /-- LASTS len (R68). -/
  | lasts (len : Byte)
  deriving DecidableEq, Repr

end Sys2Proof
end

