-- ==== Sys2Proof/Decode.lean ====
section
/-! DEFINITION. Command words: the fields of 30_encoding.md R45, the opcode map R47 as a decoder that is
total and refuses by name (R48, R91), and the encoder. A command arrives whole on the command port
(20_memory.md R32), so the decoder reads a word, not bytes. -/

namespace Sys2Proof

/-- Why a word is no command. -/
inductive DecodeError where
  /-- OP is 0x0D to 0xFF, an undefined encoding (46_control.md R91). -/
  | undefinedOpcode (op : Byte)
  /-- OP is defined and a field the opcode map marks 0 is not zero, a reserved encoding (30_encoding.md R48). -/
  | reservedField (op : Byte)
  deriving DecidableEq, Repr

/-- OP, bits 31:24 (R45). -/
def opField (w : Word) : Byte := w.extractLsb' 24 8

/-- A, bits 23:16 (R45). -/
def aField (w : Word) : Byte := w.extractLsb' 16 8

/-- B, bits 15:8 (R45). -/
def bField (w : Word) : Byte := w.extractLsb' 8 8

/-- C, bits 7:0 (R45). -/
def cField (w : Word) : Byte := w.extractLsb' 0 8

/-- The command, unless a bit of w under the row's reserved_zero_mask is set (R48). -/
def withReservedZero (w reserved : Word) (i : Instr) : Except DecodeError Instr :=
  if w &&& reserved = 0#32 then .ok i else .error (.reservedField (opField w))

/-- The opcode map R47: OP alone selects the command (mask 0xFF000000). -/
def decode (w : Word) : Except DecodeError Instr :=
  match (opField w).toNat with
  | 0x00 => withReservedZero w 0x00FFFFFF .nop
  | 0x01 => withReservedZero w 0x000000FF (.txwr (aField w) (bField w))
  | 0x02 => withReservedZero w 0x0000FFFF (.txrd (aField w))
  | 0x03 => withReservedZero w 0x0000FFFF (.rxrd (aField w))
  | 0x04 => withReservedZero w 0x000000FF (.send (aField w) (bField w))
  | 0x05 => withReservedZero w 0x00FFFFFF .service
  | 0x06 => withReservedZero w 0x0000FFFF (.rdreg (aField w))
  | 0x07 => withReservedZero w 0x0000FFFF (.crctab (aField w))
  | 0x08 => withReservedZero w 0x000000FF (.crceval (aField w) (bField w))
  | 0x09 => withReservedZero w 0x0000FFFF (.crctx (aField w))
  | 0x0A => withReservedZero w 0x0000FFFF (.crcrx (aField w))
  | 0x0B => withReservedZero w 0x0000FFFF (.ovh (aField w))
  | 0x0C => withReservedZero w 0x0000FFFF (.lasts (aField w))
  | _ => .error (.undefinedOpcode (opField w))

/-- The instruction the decoder reads from the table's word w of nbits bits, none where it refuses. -/
def decodeTableWord (nbits w : Nat) : Option Instr :=
  match decode (BitVec.ofNat 32 (w % 2 ^ nbits)) with
  | .ok i => some i
  | .error _ => none

/-- The word with fields OP, A, B and C (R45). -/
def cmdWord (op a b c : Byte) : Word := op ++ a ++ b ++ c

/-- The word of a command (R47, and the forms of R52). -/
def encode : Instr → Word
  | .nop => cmdWord 0x00 0 0 0
  | .txwr addr data => cmdWord 0x01 addr data 0
  | .txrd addr => cmdWord 0x02 addr 0 0
  | .rxrd addr => cmdWord 0x03 addr 0 0
  | .send len id => cmdWord 0x04 len id 0
  | .service => cmdWord 0x05 0 0 0
  | .rdreg sel => cmdWord 0x06 sel 0 0
  | .crctab index => cmdWord 0x07 index 0 0
  | .crceval acc byte => cmdWord 0x08 acc byte 0
  | .crctx len => cmdWord 0x09 len 0 0
  | .crcrx len => cmdWord 0x0A len 0 0
  | .ovh len => cmdWord 0x0B len 0 0
  | .lasts len => cmdWord 0x0C len 0 0

/-- A row of spec/opcode_table.json: its mnemonic, its match (under the mask 0xFF000000 that every row has)
and its reserved_zero_mask. -/
structure OpcodeRow where
  mnemonic : String
  pattern : Word
  reserved : Word
  deriving DecidableEq, Repr

/-- The row of a command. -/
def Instr.row : Instr → OpcodeRow
  | .nop => ⟨"NOP", 0x00000000, 0x00FFFFFF⟩
  | .txwr _ _ => ⟨"TXWR", 0x01000000, 0x000000FF⟩
  | .txrd _ => ⟨"TXRD", 0x02000000, 0x0000FFFF⟩
  | .rxrd _ => ⟨"RXRD", 0x03000000, 0x0000FFFF⟩
  | .send _ _ => ⟨"SEND", 0x04000000, 0x000000FF⟩
  | .service => ⟨"SERVICE", 0x05000000, 0x00FFFFFF⟩
  | .rdreg _ => ⟨"RDREG", 0x06000000, 0x0000FFFF⟩
  | .crctab _ => ⟨"CRCTAB", 0x07000000, 0x0000FFFF⟩
  | .crceval _ _ => ⟨"CRCEVAL", 0x08000000, 0x000000FF⟩
  | .crctx _ => ⟨"CRCTX", 0x09000000, 0x0000FFFF⟩
  | .crcrx _ => ⟨"CRCRX", 0x0A000000, 0x0000FFFF⟩
  | .ovh _ => ⟨"OVH", 0x0B000000, 0x0000FFFF⟩
  | .lasts _ => ⟨"LASTS", 0x0C000000, 0x0000FFFF⟩

end Sys2Proof
end

