-- ==== Sys2Proof/Config.lean ====
section
/-! DEFINITION. The constants of 00_scope.md section 3 and the free values the spec leaves to the
environment. -/

namespace Sys2Proof.Config

/-- START, the first byte of a frame and the sentinel of the stuffer (R3). -/
def START : Byte := 0x7E

/-- STOP, the last byte of a frame (R4). -/
def STOP : Byte := 0x81

/-- MAX_PAYLOAD (R5, decision D13). -/
def MAX_PAYLOAD : Nat := 254

/-- TX_CAP, the capacity of TXBUF: addresses 0 to 253 (R6). -/
def TX_CAP : Nat := 254

/-- RX_CAP, the capacity of RXBUF: addresses 0 to 253 (R6). -/
def RX_CAP : Nat := 254

/-- The default of the parameter POLY (R7). -/
def POLY_DEFAULT : Byte := 0x9B

/-- What a byte of TXBUF or RXBUF that the memory list does not name reads as.
DESIGN CHOICE (log entry 7): INIT_TX and INIT_RX may be any bytes (R13, R14, R103); this byte only says how a
list stands for 254 bytes, and every content of a buffer is some list. -/
def UNLISTED : Byte := 0x00

/-- TXOK, the transport's answer to a write (R69, decision D16), where the environment has fixed none: a
free value, one for each count of such draws (log entry 6). -/
opaque freeTxOk : Nat → Bool

/-- k, how many bytes of the frame a failed write sent (R69, decision D16), where the environment has fixed
none: a free value, one for each count of such draws (log entry 6). -/
opaque freeTxSent : Nat → Nat

end Sys2Proof.Config
end

