-- ==== Sys2Proof/Machine/Table.lean ====
section
/-! DEFINITION. BuildTable, the generator of the checksum table (41_checksum.md R53). -/

namespace Sys2Proof.Machine

/-- One step of polynomial division on a running byte c (R53). The shift drops the bit it pushes out of
bit 7, which is the rule's `& 0xFF`. -/
def tableStep (poly c : Byte) : Byte :=
  if c.msb then (c <<< 1) ^^^ poly else c <<< 1

/-- n steps from c. -/
def tableSteps (poly : Byte) : Nat → Byte → Byte
  | 0, c => c
  | n + 1, c => tableSteps poly n (tableStep poly c)

/-- T[i]: eight steps from the seed i (R53; conflict C2). -/
def tableEntry (poly i : Byte) : Byte := tableSteps poly 8 i

/-- The entries T[i], T[i + 1], …, count of them. -/
def tableFrom (poly : Byte) : Nat → Nat → List Byte
  | _, 0 => []
  | i, count + 1 => tableEntry poly (BitVec.ofNat 8 i) :: tableFrom poly (i + 1) count

@[simp] theorem tableFrom_length (poly : Byte) (i count : Nat) :
    (tableFrom poly i count).length = count := by
  induction count generalizing i with
  | zero => rfl
  | succ n ih => simp [tableFrom, ih]

/-- BuildTable(poly): 256 entries (R53; R8; conflict C1). -/
def buildTable (poly : Byte) : Vector Byte 256 :=
  ⟨⟨tableFrom poly 0 256⟩, tableFrom_length poly 0 256⟩

end Sys2Proof.Machine
end

