-- ==== Sys2Proof/Machine/State.lean ====
section
/-! DEFINITION. The state of the block (10_state.md), the reasons it can stop, launch and reset
(70_reset_and_hazards.md R103). -/

namespace Sys2Proof.Machine

/-- A byte buffer (TXBUF or RXBUF): its listed bytes by address, in the canonical form of `Memory.wf`
(Machine/Ops.lean). An address that is not listed reads as `Config.UNLISTED`. -/
abbrev Memory := List Host.Cell

/-- The parser state P_STATE (R15). `undefined` is the eighth 3-bit code, 7, which no rule writes and which
44_receive.md R82 handles (log entry 5). -/
inductive PState where
  | findStart | findId | findOverhead | findLength | findPayload | findChecksum | findStop
  | undefined
  deriving DecidableEq, Repr

/-- The six outcomes STATUS can hold (R20); `continuing` is the outcome Continue. -/
inductive Status where
  | continuing | newData | noData | checksumError | payloadLengthError | stopByteError
  deriving DecidableEq, Repr

/-- The transport's answer to the write of a frame (43_send.md R69, decision D16). -/
inductive WriteResult where
  /-- TXOK is true: the whole frame reached the link. -/
  | ok
  /-- TXOK is false and the first `sent` bytes of the frame reached the link. A number above the frame's
  length stands for the whole frame, so the values that differ are those of [0, |F|]. -/
  | failed (sent : Nat)
  deriving DecidableEq, Repr

/-- What the outside world can do to the block, between two commands or as a command (log entry 1). -/
inductive Event where
  /-- The host issues a command word (00_scope.md R2). -/
  | command (w : Word)
  /-- The link-in agent appends bytes to RXQ (20_memory.md R35). -/
  | linkIn (bytes : List Byte)
  /-- The link-out agent removes n bytes from the head of TXQ, or all there are if there are fewer (R35). -/
  | linkOut (n : Nat)
  /-- The reset input is asserted and released (70_reset_and_hazards.md R103). -/
  | reset
  deriving DecidableEq, Repr

/-- The whole state of one block. -/
structure State where
  /-- POLY, fixed for a run (00_scope.md R7; log entry 8). -/
  poly : Byte
  /-- CT, the checksum table (R12; log entry 12). -/
  ct : Vector Byte 256
  /-- TXBUF, addresses 0 to 253 (R13). -/
  txbuf : Memory
  /-- RXBUF, addresses 0 to 253 (R14). -/
  rxbuf : Memory
  /-- P_STATE (R15). -/
  pState : PState
  /-- P_ID (R16). -/
  pId : Byte
  /-- P_OVH (R17). -/
  pOvh : Byte
  /-- P_LEN (R18). -/
  pLen : Byte
  /-- P_CUR (R19). -/
  pCur : Byte
  /-- STATUS (R20). -/
  status : Status
  /-- BYTES_READ (R21). -/
  bytesRead : Byte
  /-- UPS, bit 0 of FAULT (R22); the other bits of FAULT are always 0 and are not stored (log entry 10). -/
  ups : Bool
  /-- RXQ, oldest byte first (R23). -/
  rxq : List Byte
  /-- TXQ, oldest byte first (R24). -/
  txq : List Byte
  /-- The model's own: what the outside world does next, oldest first (log entry 1). -/
  inputs : List Event
  /-- The model's own: the response words given so far, oldest first (30_encoding.md R46; log entry 3). -/
  responses : List Word
  /-- The model's own: the transport's answers to the coming SENDs that are fixed, oldest first (log entry 6). -/
  writeResults : List WriteResult
  /-- The model's own: how many SENDs took a free value for an answer (log entry 6). -/
  draws : Nat
  deriving DecidableEq, Repr

/-- Why a step stops with a fault. -/
inductive Fault where
  /-- Raised by SERVICE where it forms an RXBUF index outside 0 to 253: FindPayload with P_CUR above 253, or
  FindChecksum with P_LEN above 254. 20_memory.md R30 says SERVICE never does, and no state that meets
  `Inv` (Safety.lean) does. Safe: the model stops in states the block cannot be in (log entry 9). -/
  | rxIndexOutside
  deriving DecidableEq, Repr

/-- Why a step is refused. -/
inductive Refusal where
  /-- Raised by an arm of `exec` whose instruction has no meaning yet; no arm raises it. Safe. -/
  | notModelled (mnemonic : String)
  deriving DecidableEq, Repr

/-- The outcome of a command or an event. -/
abbrev Result := Host.Outcome State Fault Refusal

/-- The launch parameters (00_scope.md R7, R10; R13, R14, R23; decision D18). -/
structure Launch where
  poly : Byte
  initTx : Memory
  initRx : Memory
  initRxq : List Byte
  deriving DecidableEq, Repr

/-- The state of the block right after the reset that ends its construction (70_reset_and_hazards.md R103). -/
def State.launch (p : Launch) : State :=
  { poly := p.poly, ct := buildTable p.poly
    txbuf := p.initTx, rxbuf := p.initRx
    pState := .findStart, pId := 0, pOvh := 0, pLen := 0, pCur := 0
    status := .continuing, bytesRead := 0, ups := false
    rxq := p.initRxq, txq := []
    inputs := [], responses := [], writeResults := [], draws := 0 }

/-- The launch state of the default POLY, with buffers that list nothing and an empty RXQ. DESIGN CHOICE for
INIT_TX, INIT_RX and INIT_RXQ, which may be anything (R103; log entry 7). -/
def State.reset : State :=
  State.launch { poly := Config.POLY_DEFAULT, initTx := [], initRx := [], initRxq := [] }

end Sys2Proof.Machine
end

