-- ==== Sys2Proof/Machine/Flags.lean ====
section
/-! DEFINITION. The codes of STATUS, P_STATE and FAULT, the response word, and the one place where SERVICE writes
STATUS and BYTES_READ. STATUS holds the block's only condition flags (10_state.md R20). -/

namespace Sys2Proof.Machine

/-- The code of an outcome (30_encoding.md R49). -/
def Status.code : Status → Byte
  | .continuing => 0x03
  | .newData => 0x02
  | .noData => 0x01
  | .checksumError => 0x00
  | .payloadLengthError => 0xFF
  | .stopByteError => 0xFE

/-- The 3-bit code of a parser state, zero-extended to a byte (30_encoding.md R50). -/
def PState.code : PState → Byte
  | .findStart => 0
  | .findId => 1
  | .findOverhead => 2
  | .findLength => 3
  | .findPayload => 4
  | .findChecksum => 5
  | .findStop => 6
  | .undefined => 7

/-- FAULT as RDREG reads it: bit 0 is UPS and bits 7 to 1 read 0 (10_state.md R22). -/
def State.faultReg (s : State) : Byte := if s.ups then 0x01 else 0x00

/-- The response word: VAL in 7:0, STS in 15:8, CERR in 16, zeros above (30_encoding.md R46). -/
def rspWord (cerr : Bool) (sts val : Byte) : Word := 0#15 ++ BitVec.ofBool cerr ++ sts ++ val

/-- The response port gives one more word. -/
def State.answer (s : State) (rsp : Word) : State := { s with responses := s.responses ++ [rsp] }

/-- `respond(val, sts)` (00_scope.md section 4). -/
def State.respond (s : State) (val sts : Byte) : State := s.answer (rspWord false sts val)

/-- The end of a SERVICE: STATUS and BYTES_READ written once, and the response that carries them
(44_receive.md R72). -/
def State.finishService (s : State) (t : Status) (br : Byte) : State :=
  { s with status := t, bytesRead := br }.respond br t.code

end Sys2Proof.Machine
end

