-- ==== Sys2Proof/Machine/Ops.lean ====
section
/-! DEFINITION. The shared operations: MemRead and MemWrite on a buffer, the queues, the checksum fold, raising
CERR, the transport's answer to a write, and reset. -/

namespace Sys2Proof.Machine

/-- `MemRead`: the byte at address a (00_scope.md section 4). -/
def Memory.read : Memory → Nat → Byte
  | [], _ => Config.UNLISTED
  | (x, v) :: m, a => if x = a then v else Memory.read m a

/-- The list without its entries for address a. -/
def Memory.eraseCell (m : Memory) (a : Nat) : Memory := m.filter (fun c => c.1 != a)

/-- The list with an entry (a, v) before the first entry of a higher address. -/
def Memory.insertCell : Memory → Nat → Byte → Memory
  | [], a, v => [(a, v)]
  | (x, w) :: m, a, v => if a < x then (a, v) :: (x, w) :: m else (x, w) :: Memory.insertCell m a v

/-- `MemWrite`: the buffer with v at address a, in canonical form (00_scope.md section 4). -/
def Memory.write (m : Memory) (a : Nat) (v : Byte) : Memory :=
  if v = Config.UNLISTED then m.eraseCell a else (m.eraseCell a).insertCell a v

/-- The addresses rise strictly from lo, stay below the capacity, and no entry holds what an unlisted
address reads as. -/
def Memory.wfFrom : Nat → Memory → Bool
  | _, [] => true
  | lo, (x, v) :: m =>
    decide (lo ≤ x) && decide (x < Config.MAX_PAYLOAD) && decide (v ≠ Config.UNLISTED) && Memory.wfFrom (x + 1) m

/-- The canonical form of a buffer: equal buffers are equal lists. -/
def Memory.wf (m : Memory) : Bool := Memory.wfFrom 0 m

/-- The bytes at addresses 0 to n - 1, in order: `BUF[0 .. n)`. -/
def Memory.bytes (m : Memory) (n : Nat) : List Byte := (List.range n).map m.read

/-- `Evaluate(acc, b)` (41_checksum.md R54). -/
def evaluate (ct : Vector Byte 256) (acc b : Byte) : Byte := ct[(acc ^^^ b).toNat]'((acc ^^^ b).isLt)

/-- `ChecksumOf(L)`: the fold of Evaluate from accumulator 0 (41_checksum.md R55). -/
def checksumOf (ct : Vector Byte 256) (l : List Byte) : Byte := l.foldl (evaluate ct) 0x00

/-- `raise CERR`, the block's one synchronous exception: the response 0x00010000, and no state changes
(60_exceptions.md R93). It saves nothing and changes no mode, and no command returns from it (R96, R97). -/
def State.raiseCerr (s : State) : State := s.answer (rspWord true 0x00 0x00)

/-- The free answer to the transport write numbered n (decision D16; log entry 6). -/
def freeWriteResult (n : Nat) : WriteResult :=
  if Config.freeTxOk n then .ok else .failed (Config.freeTxSent n)

/-- The draw TXOK, k of the next SEND: what the environment has fixed, else the free value (43_send.md R69). -/
def State.nextWrite (s : State) : WriteResult :=
  match s.writeResults with
  | [] => freeWriteResult s.draws
  | d :: _ => d

/-- The state once the draw `nextWrite` is taken. -/
def State.dropWrite (s : State) : State :=
  match s.writeResults with
  | [] => { s with draws := s.draws + 1 }
  | _ :: ds => { s with writeResults := ds }

/-- The bytes of the frame f that reach the link (43_send.md R69). -/
def WriteResult.reached : WriteResult → List Byte → List Byte
  | .ok, f => f
  | .failed k, f => f.take k

/-- The result byte of SEND (43_send.md R69). -/
def WriteResult.val : WriteResult → Byte
  | .ok => 0x01
  | .failed _ => 0x00

/-- `TxPush(L)` (00_scope.md section 4). -/
def State.txPush (s : State) (l : List Byte) : State := { s with txq := s.txq ++ l }

/-- Handing a frame to the transport: the draw, what reaches TXQ, and SEND's response (43_send.md R69 step 6). -/
def State.transportWrite (s : State) (f : List Byte) : State :=
  (s.dropWrite.txPush (s.nextWrite.reached f)).respond s.nextWrite.val 0x00

/-- The link-in agent appends bytes to the tail of RXQ (10_state.md R23). -/
def State.linkIn (s : State) (bytes : List Byte) : State := { s with rxq := s.rxq ++ bytes }

/-- The link-out agent takes n bytes from the head of TXQ (10_state.md R24). -/
def State.linkOut (s : State) (n : Nat) : State := { s with txq := s.txq.drop n }

/-- The reset input: CT is built, the registers take their reset values, the buffers and the queues are
unchanged (70_reset_and_hazards.md R103). It gives no response. -/
def State.applyReset (s : State) : State :=
  { s with
    ct := buildTable s.poly
    pState := .findStart, pId := 0, pOvh := 0, pLen := 0, pCur := 0
    status := .continuing, bytesRead := 0, ups := false }

end Sys2Proof.Machine
end

