-- ==== Sys2Proof/Machine/Operands.lean ====
section
/-! DEFINITION. The operand forms: a buffer address, a buffer length, a register selector, and the clamped length
of SEND. Operands are used as is; out of range is CERR, never wrapped (20_memory.md R29, 30_encoding.md R45). -/

namespace Sys2Proof.Machine

/-- An address operand of TXWR, TXRD or RXRD: 0 to 253 (R28, R29). -/
def bufAddr (a : Byte) : Option Nat := if a.toNat < Config.MAX_PAYLOAD then some a.toNat else none

/-- A length operand of CRCTX or CRCRX: 0 to 254 (R29). -/
def bufLen (len : Byte) : Option Nat := if len.toNat ≤ Config.MAX_PAYLOAD then some len.toNat else none

/-- SEND's length operand: `min(A, 254)` (43_send.md R69). -/
def clampLen (len : Byte) : Nat := min len.toNat Config.MAX_PAYLOAD

/-- The registers RDREG selects (30_encoding.md R51). -/
inductive RegSel where
  | status | bytesRead | pId | pOvh | pLen | pCur | pState | fault | poly
  deriving DecidableEq, Repr

/-- The selector codes 0 to 8 (30_encoding.md R51). -/
def selectReg (sel : Byte) : Option RegSel :=
  match sel.toNat with
  | 0 => some .status
  | 1 => some .bytesRead
  | 2 => some .pId
  | 3 => some .pOvh
  | 4 => some .pLen
  | 5 => some .pCur
  | 6 => some .pState
  | 7 => some .fault
  | 8 => some .poly
  | _ => none

/-- What RDREG reads (46_control.md R90). -/
def State.readReg (s : State) : RegSel → Byte
  | .status => s.status.code
  | .bytesRead => s.bytesRead
  | .pId => s.pId
  | .pOvh => s.pOvh
  | .pLen => s.pLen
  | .pCur => s.pCur
  | .pState => s.pState.code
  | .fault => s.faultReg
  | .poly => s.poly

end Sys2Proof.Machine
end

