-- ==== Sys2Proof/Machine/Buffer.lean ====
section
/-! DEFINITION. The byte accesses of the marshalling boundary (45_buffer_access.md R86 to R88). -/

namespace Sys2Proof.Machine

/-- TXWR (R86). -/
def execTxwr (addr data : Byte) (s : State) : Result :=
  match bufAddr addr with
  | some a => .next ({ s with txbuf := s.txbuf.write a data }.respond 0x00 0x00)
  | none => .next s.raiseCerr

/-- The byte at an address of a buffer, or CERR for an address above 253 (R29, R87, R88). -/
def readCommand (m : Memory) (addr : Byte) (s : State) : Result :=
  match bufAddr addr with
  | some a => .next (s.respond (m.read a) 0x00)
  | none => .next s.raiseCerr

/-- TXRD (R87). -/
def execTxrd (addr : Byte) (s : State) : Result := readCommand s.txbuf addr s

/-- RXRD (R88). -/
def execRxrd (addr : Byte) (s : State) : Result := readCommand s.rxbuf addr s

end Sys2Proof.Machine
end

