-- ==== Sys2Proof/Machine/Checksum.lean ====
section
/-! DEFINITION. The diagnostic commands of the checksum unit (41_checksum.md R57 to R60). -/

namespace Sys2Proof.Machine

/-- CRCTAB (R57). -/
def execCrctab (index : Byte) (s : State) : Result :=
  .next (s.respond (s.ct[index.toNat]'index.isLt) 0x00)

/-- CRCEVAL (R58). -/
def execCrceval (acc byte : Byte) (s : State) : Result :=
  .next (s.respond (evaluate s.ct acc byte) 0x00)

/-- The checksum of the first bytes of a buffer, or CERR for a length above 254 (R29, R59, R60). -/
def checksumCommand (m : Memory) (len : Byte) (s : State) : Result :=
  match bufLen len with
  | some n => .next (s.respond (checksumOf s.ct (m.bytes n)) 0x00)
  | none => .next s.raiseCerr

/-- CRCTX (R59). -/
def execCrctx (len : Byte) (s : State) : Result := checksumCommand s.txbuf len s

/-- CRCRX (R60). -/
def execCrcrx (len : Byte) (s : State) : Result := checksumCommand s.rxbuf len s

end Sys2Proof.Machine
end

