-- ==== Sys2Proof/Machine/Control.lean ====
section
/-! DEFINITION. NOP and RDREG (46_control.md R89, R90). -/

namespace Sys2Proof.Machine

/-- NOP (R89). -/
def execNop (s : State) : Result := .next (s.respond 0x00 0x00)

/-- RDREG (R90). -/
def execRdreg (sel : Byte) (s : State) : Result :=
  match selectReg sel with
  | some r => .next (s.respond (s.readReg r) 0x00)
  | none => .next s.raiseCerr

end Sys2Proof.Machine
end

