-- ==== Sys2Proof/Machine/Stuffing.lean ====
section
/-! DEFINITION. The byte stuffer and destuffer (42_stuffing.md R61 to R64) and the commands OVH and LASTS. -/

namespace Sys2Proof.Machine

/-- The lowest sentinel index among i, i + 1, …, count of them. -/
def firstSentinel (m : Memory) : Nat → Nat → Option Nat
  | _, 0 => none
  | i, count + 1 => if m.read i = Config.START then some i else firstSentinel m (i + 1) count

/-- ComputeOverhead (R61). -/
def computeOverhead (m : Memory) (payLen : Nat) : Byte :=
  if payLen > Config.MAX_PAYLOAD then 0xFF
  else
    match firstSentinel m 0 payLen with
    | some i => BitVec.ofNat 8 i
    | none => 0xFF

/-- The highest sentinel index below n. -/
def lastSentinelBelow (m : Memory) : Nat → Option Nat
  | 0 => none
  | i + 1 => if m.read i = Config.START then some i else lastSentinelBelow m i

/-- FindLastSentinel (R62); none is the function value -1 (00_scope.md R11). -/
def findLastSentinel (m : Memory) (payLen : Nat) : Option Nat :=
  if payLen > Config.MAX_PAYLOAD then none else lastSentinelBelow m payLen

/-- The backward scan of Stuff over the indices below n, with `ref` the sentinel met last (R63). -/
def stuffBelow : Nat → Nat → Memory → Memory
  | 0, _, m => m
  | i + 1, ref, m =>
    if m.read i = Config.START then stuffBelow i i (m.write i (BitVec.ofNat 8 (ref - i)))
    else stuffBelow i ref m

/-- Stuff, in place (R63). -/
def stuff (m : Memory) (payLen : Nat) : Memory :=
  match findLastSentinel m payLen with
  | none => m
  | some ref => stuffBelow payLen ref m

/-- The walk of Destuff from index i, for at most `fuel` entries. The index is a natural number and never wraps;
at 254 or above the walk ends without a write (R64, decision D9). -/
def destuffWalk : Nat → Nat → Memory → Memory
  | 0, _, m => m
  | fuel + 1, i, m =>
    if i ≥ Config.RX_CAP then m
    else if m.read i = 0x00 then m.write i Config.START
    else destuffWalk fuel (i + (m.read i).toNat) (m.write i Config.START)

/-- Destuff (R64). The index rises at every step, so the walk visits at most 254 entries. -/
def destuff (m : Memory) (start : Byte) : Memory :=
  if start.toNat > Config.MAX_PAYLOAD then m else destuffWalk Config.RX_CAP start.toNat m

/-- OVH (R67). -/
def execOvh (len : Byte) (s : State) : Result :=
  .next (s.respond (computeOverhead s.txbuf len.toNat) 0x00)

/-- LASTS (R68): -1 is reported as 0xFF. -/
def execLasts (len : Byte) (s : State) : Result :=
  match findLastSentinel s.txbuf len.toNat with
  | some i => .next (s.respond (BitVec.ofNat 8 i) 0x00)
  | none => .next (s.respond 0xFF 0x00)

end Sys2Proof.Machine
end

