-- ==== Sys2Proof/Machine/Receive.lean ====
section
/-! DEFINITION. The packet-receive state machine (44_receive.md): RxStep, one definition per arm, and SERVICE. -/

namespace Sys2Proof.Machine

/-- What one byte leads to (44_receive.md, before section 1). -/
inductive RxResult where
  /-- The parser goes on. -/
  | more (s : State)
  /-- `Term(t, br)`. -/
  | term (s : State) (t : Status) (br : Byte)
  /-- `Abort`, from code 7 of P_STATE only (R82). -/
  | abort (s : State)
  /-- An RXBUF index outside 0 to 253 was formed, which R30 says never happens (log entry 9). -/
  | outside
  deriving DecidableEq, Repr

/-- FindStart (R74). -/
def rxFindStart (s : State) (b : Byte) : RxResult :=
  if b = Config.START then .more { s with pState := .findId } else .more s

/-- FindId (R75). -/
def rxFindId (s : State) (b : Byte) : RxResult :=
  .more { s with pId := b, pState := .findOverhead }

/-- FindOverhead (R76). -/
def rxFindOverhead (s : State) (b : Byte) : RxResult :=
  .more { s with pOvh := b, pState := .findLength }

/-- FindLength (R77). -/
def rxFindLength (s : State) (b : Byte) : RxResult :=
  if 1 ≤ b.toNat ∧ b.toNat ≤ Config.MAX_PAYLOAD then
    .more { s with pLen := b, pCur := 0, pState := .findPayload }
  else
    .term { s with pState := .findStart } .payloadLengthError 0x00

/-- FindPayload (R78). -/
def rxFindPayload (s : State) (b : Byte) : RxResult :=
  if s.pCur.toNat < Config.RX_CAP then
    .more { s with
      rxbuf := s.rxbuf.write s.pCur.toNat b
      pCur := s.pCur + 1
      pState := if s.pCur + 1 = s.pLen then .findChecksum else .findPayload }
  else .outside

/-- FindChecksum (R79): over the bytes as received, before any destuffing. -/
def rxFindChecksum (s : State) (b : Byte) : RxResult :=
  if s.pLen.toNat ≤ Config.RX_CAP then
    if b = checksumOf s.ct (s.rxbuf.bytes s.pLen.toNat) then .more { s with pState := .findStop }
    else .term { s with pState := .findStart } .checksumError 0x00
  else .outside

/-- FindStop (R80). -/
def rxFindStop (s : State) (b : Byte) : RxResult :=
  if b = Config.STOP then
    .term { s with pState := .findStart, rxbuf := destuff s.rxbuf s.pOvh } .newData s.pLen
  else
    .term { s with pState := .findStart } .stopByteError 0x00

/-- Code 7 of P_STATE (R82): `raise UPS`, back to FindStart, the byte is dropped. -/
def rxUndefined (s : State) : RxResult :=
  .abort { s with ups := true, pState := .findStart }

/-- RxStep (44_receive.md section 2, R85). -/
def rxStep (s : State) (b : Byte) : RxResult :=
  match s.pState with
  | .findStart => rxFindStart s b
  | .findId => rxFindId s b
  | .findOverhead => rxFindOverhead s b
  | .findLength => rxFindLength s b
  | .findPayload => rxFindPayload s b
  | .findChecksum => rxFindChecksum s b
  | .findStop => rxFindStop s b
  | .undefined => rxUndefined s

/-- The loop of SERVICE over the bytes RXQ holds (R72). `RxPop` is the move of the head of the list out of RXQ; the
list is RXQ at entry and RXQ does not grow, so its length is n0 (R35, decision D8). FindPayload's drain is this
loop (R81). -/
def serviceLoop : List Byte → State → Result
  | [], s => .next (s.finishService .continuing 0x00)
  | b :: rest, s =>
    match rxStep { s with rxq := rest } b with
    | .more s' => serviceLoop rest s'
    | .term s' t br => .next (s'.finishService t br)
    | .abort s' => .next (s'.finishService .continuing 0x00)
    | .outside => .fault .rxIndexOutside

/-- SERVICE (R72): NoData on an empty RXQ, else the loop. -/
def execService (s : State) : Result :=
  match s.rxq with
  | [] => .next (s.finishService .noData 0x00)
  | b :: rest => serviceLoop (b :: rest) s

end Sys2Proof.Machine
end

