-- ==== Sys2Proof/Machine/Send.lean ====
section
/-! DEFINITION. The frame assembler: the wire frame (30_encoding.md R40) and SEND (43_send.md R69). -/

namespace Sys2Proof.Machine

/-- The bytes of a frame on the wire, START first (30_encoding.md R40). -/
def frameBytes (id overhead len : Byte) (payload : List Byte) (checksum : Byte) : List Byte :=
  [Config.START, id, overhead, len] ++ payload ++ [checksum, Config.STOP]

/-- The frame F that `SEND len, id` builds in state s (R69 steps 1 to 5). -/
def State.sendFrame (s : State) (len id : Byte) : List Byte :=
  frameBytes id (computeOverhead s.txbuf (clampLen len)) (BitVec.ofNat 8 (clampLen len))
    ((stuff s.txbuf (clampLen len)).bytes (clampLen len))
    (checksumOf s.ct ((stuff s.txbuf (clampLen len)).bytes (clampLen len)))

/-- SEND (R69): TXBUF is stuffed in place whatever the transport answers. -/
def execSend (len id : Byte) (s : State) : Result :=
  .next ({ s with txbuf := stuff s.txbuf (clampLen len) }.transportWrite (s.sendFrame len id))

end Sys2Proof.Machine
end

