-- ==== Sys2Proof/Machine/Dispatch.lean ====
section
/-! DEFINITION. One arm per command, one direct call of its meaning. -/

namespace Sys2Proof.Machine

def exec (i : Instr) (s : State) : Host.Outcome State Fault Refusal :=
  match i with
  | .nop => Sys2Proof.Machine.execNop s
  | .txwr addr data => Sys2Proof.Machine.execTxwr addr data s
  | .txrd addr => Sys2Proof.Machine.execTxrd addr s
  | .rxrd addr => Sys2Proof.Machine.execRxrd addr s
  | .send len id => Sys2Proof.Machine.execSend len id s
  | .service => Sys2Proof.Machine.execService s
  | .rdreg sel => Sys2Proof.Machine.execRdreg sel s
  | .crctab index => Sys2Proof.Machine.execCrctab index s
  | .crceval acc byte => Sys2Proof.Machine.execCrceval acc byte s
  | .crctx len => Sys2Proof.Machine.execCrctx len s
  | .crcrx len => Sys2Proof.Machine.execCrcrx len s
  | .ovh len => Sys2Proof.Machine.execOvh len s
  | .lasts len => Sys2Proof.Machine.execLasts len s

end Sys2Proof.Machine
end

