-- ==== Sys2Proof/Machine/Port.lean ====
section
/-! DEFINITION. The ports of the block: what a command word does, and what every other event of the outside
world does. -/

namespace Sys2Proof.Machine

/-- A command word on the command port: the command it stands for, or CERR for a word that stands for none
(30_encoding.md R48, 46_control.md R91, 60_exceptions.md R93; log entry 4). -/
def runWord (w : Word) (s : State) : Result :=
  match decode w with
  | .ok i => exec i s
  | .error _ => .next s.raiseCerr

/-- One event of the outside world (log entry 1). -/
def takeEvent (e : Event) (s : State) : Result :=
  match e with
  | .command w => runWord w s
  | .linkIn bytes => .next (s.linkIn bytes)
  | .linkOut n => .next (s.linkOut n)
  | .reset => .next s.applyReset

/-- A command word put first on the command port (log entry 2). -/
def State.issueFirst (s : State) (w : Word) : State := { s with inputs := .command w :: s.inputs }

end Sys2Proof.Machine
end

