-- ==== Sys2Proof/Machine/Step.lean ====
section
/-! DEFINITION. One step of the block: the oldest event of the outside world, or nothing while there is none. -/

namespace Sys2Proof.Machine

/-- Commands and link actions take effect one at a time, in the order they come (20_memory.md R34, R35). With none
waiting the block holds its state (60_exceptions.md R102). -/
def step (s : State) : Host.Outcome State Fault Refusal :=
  match s.inputs with
  | [] => .next s
  | e :: rest => takeEvent e { s with inputs := rest }

/-- The state whose next step runs the command word w (its bits above nbits zero): the host issues it first. The
block fetches no instruction from any memory of its own (20_memory.md R38; log entry 2). -/
def State.withFetchWord (s : State) (nbits w : Nat) : State :=
  s.issueFirst (BitVec.ofNat 32 (w % 2 ^ nbits))

end Sys2Proof.Machine
end

