-- ==== Sys2Proof/Machine/Assembler.lean ====
section
/-! DEFINITION. The pseudo-instructions of 30_encoding.md R52 as expansions into commands, and the commands of a
list run in order. -/

namespace Sys2Proof.Machine

/-- `TXWR a, d0; TXWR a+1, d1; …`. -/
def txwrFrom : Nat → List Byte → List Instr
  | _, [] => []
  | a, d :: ds => .txwr (BitVec.ofNat 8 a) d :: txwrFrom (a + 1) ds

/-- WRITERAW a, [d0, …]: its commands, or none where the assembler rejects it (R52). -/
def writeRaw (a : Nat) (ds : List Byte) : Option (List Instr) :=
  if a + ds.length > Config.MAX_PAYLOAD then none else some (txwrFrom a ds)

/-- `RXRD a; RXRD a+1; …`, k of them. -/
def rxrdFrom : Nat → Nat → List Instr
  | _, 0 => []
  | a, k + 1 => .rxrd (BitVec.ofNat 8 a) :: rxrdFrom (a + 1) k

/-- READRAW a, k: its commands, or none where the assembler rejects it (R52). -/
def readRaw (a k : Nat) : Option (List Instr) :=
  if a + k > Config.MAX_PAYLOAD then none else some (rxrdFrom a k)

/-- `SEND len` with no id is `SEND len, 0` (R52). -/
def sendDefault (len : Byte) : Instr := .send len 0

/-- The commands of a list, in order, each complete before the next (20_memory.md R34). -/
def execAll : List Instr → State → Result
  | [], s => .next s
  | i :: is, s =>
    match exec i s with
    | .next s' => execAll is s'
    | .fault r => .fault r
    | .refused r => .refused r

end Sys2Proof.Machine
end

