-- ==== Sys2Proof/Machine/System.lean ====
section
/-! DEFINITION. Any number of blocks, each with a state of its own (60_exceptions.md R100). -/

namespace Sys2Proof.Machine

/-- The blocks of a system, one per link. -/
abbrev System := List State

/-- Block k takes one step of its own; no other block changes. -/
def systemStep (k : Nat) (sys : System) : Host.Outcome System Fault Refusal :=
  match sys[k]? with
  | none => .next sys
  | some s =>
    match step s with
    | .next s' => .next (sys.set k s')
    | .fault r => .fault r
    | .refused r => .refused r

end Sys2Proof.Machine
end

