-- ==== Sys2Proof/WellFormed.lean ====
section
/-! DEFINITION. Which commands name an address, length or selector inside its legal range
(20_memory.md R29). A command that is not well formed is still a command: it raises CERR (60_exceptions.md R93). -/

namespace Sys2Proof

/-- The operands are in the legal range of the space they name (20_memory.md R28, R29). CT takes every
index, SEND every length and id (43_send.md R69), OVH and LASTS every length (R29). -/
def Instr.wf : Instr → Bool
  | .nop => true
  | .txwr addr _ => decide (addr.toNat < Config.TX_CAP)
  | .txrd addr => decide (addr.toNat < Config.TX_CAP)
  | .rxrd addr => decide (addr.toNat < Config.RX_CAP)
  | .send _ _ => true
  | .service => true
  | .rdreg sel => decide (sel.toNat ≤ 8)
  | .crctab _ => true
  | .crceval _ _ => true
  | .crctx len => decide (len.toNat ≤ Config.MAX_PAYLOAD)
  | .crcrx len => decide (len.toNat ≤ Config.MAX_PAYLOAD)
  | .ovh _ => true
  | .lasts _ => true

end Sys2Proof
end

