-- ==== Sys2Proof/Safety.lean ====
section
/-! DEFINITION. The invariant of the block, and the words the statements use. -/

namespace Sys2Proof.Machine

/-- What holds after every step of a run from launch. -/
structure Inv (s : State) : Prop where
  /-- CT holds BuildTable(POLY) (10_state.md R12). -/
  table : s.ct = buildTable s.poly
  /-- TXBUF is in canonical form. -/
  txbuf : s.txbuf.wf = true
  /-- RXBUF is in canonical form. -/
  rxbuf : s.rxbuf.wf = true
  /-- P_STATE is one of the seven states (R15). -/
  pState : s.pState ≠ .undefined
  /-- UPS is never set (R22). -/
  ups : s.ups = false
  /-- P_LEN is at most 254 (R18). -/
  pLen : s.pLen.toNat ≤ 254
  /-- The cursor is inside the payload in FindPayload (R19, 44_receive.md R78). -/
  payload : s.pState = .findPayload → s.pCur.toNat < s.pLen.toNat
  /-- The payload is complete in FindChecksum and FindStop (R19, 44_receive.md R78, R79). -/
  complete : s.pState = .findChecksum ∨ s.pState = .findStop → 1 ≤ s.pLen.toNat ∧ s.pCur = s.pLen
  /-- P_CUR is at most 254 (R19). -/
  pCur : s.pCur.toNat ≤ 254
  /-- BYTES_READ is at most 254 (R21). -/
  bytesRead : s.bytesRead.toNat ≤ 254
  /-- BYTES_READ is nonzero exactly when STATUS is NewData (R21). -/
  newData : s.bytesRead ≠ 0 ↔ s.status = .newData

/-- The word w on the command port is answered by CERR and changes nothing else (60_exceptions.md R93). That
the port is the list `inputs` is the model's form (log entry 1). -/
def RaisesCerr (w : Word) : Prop :=
  ∀ (s : State) (rest : List Event), s.inputs = .command w :: rest →
    step s = .next { s with inputs := rest, responses := s.responses ++ [0x00010000#32] }

/-- The commands that only read (20_memory.md R33) and NOP. -/
def readsOnly : Instr → Bool
  | .nop | .txrd _ | .rxrd _ | .rdreg _ | .crctab _ | .crceval _ _ | .crctx _ | .crcrx _ | .ovh _ | .lasts _ => true
  | .txwr _ _ | .send _ _ | .service => false

/-- The receive path of two states is the same: RXQ, the parser registers, RXBUF, STATUS, BYTES_READ and FAULT, and
CT, which both paths read (10_state.md R27). -/
def SameReceivePath (s s' : State) : Prop :=
  s.ct = s'.ct ∧ s.rxq = s'.rxq ∧ s.rxbuf = s'.rxbuf ∧ s.pState = s'.pState ∧ s.pId = s'.pId ∧
    s.pOvh = s'.pOvh ∧ s.pLen = s'.pLen ∧ s.pCur = s'.pCur ∧ s.status = s'.status ∧
    s.bytesRead = s'.bytesRead ∧ s.ups = s'.ups

/-- The send path of two states is the same: TXBUF and TXQ, the transport's answers, and CT (10_state.md R27). -/
def SameSendPath (s s' : State) : Prop :=
  s.ct = s'.ct ∧ s.txbuf = s'.txbuf ∧ s.txq = s'.txq ∧ s.writeResults = s'.writeResults ∧ s.draws = s'.draws

/-- The bytes of a stream arrive in pieces, and the host issues one SERVICE after each piece (44_receive.md R83). -/
def serviceArrivals : List (List Byte) → State → Result
  | [], s => .next s
  | piece :: pieces, s =>
    match exec .service (s.linkIn piece) with
    | .next t => serviceArrivals pieces t
    | .fault r => .fault r
    | .refused r => .refused r

end Sys2Proof.Machine
end

