-- ==== Sys2Proof/Certificates/Slice0/Obligations.lean ====
section
/-! DEFINITION. The statements about the block, from the numbered rules of spec/. A response whose VAL is v and whose
other fields are 0 is written `BitVec.setWidth 32 v` (30_encoding.md R46). -/

open Sys2Proof Sys2Proof.Machine

/-! ### Encoding -/

/-- Decoding the word of any command, every operand at every value, gives that command (30_encoding.md R45, R47). -/
def Obligations.DecodeOfEncodeIsTheCommand : Prop :=
  ∀ i : Instr, decode (encode i) = .ok i

/-- A word that decodes is the word of the command it decodes to, so each command has one word (R47, R48). -/
def Obligations.EncodeOfDecodeIsTheWord : Prop :=
  ∀ (w : Word) (i : Instr), decode w = .ok i → encode i = w

/-- R48 and R91: an undefined opcode and a nonzero reserved field are refused by name, and on the command port they
raise CERR and change no state; every other word is a command. -/
def Obligations.ReservedAndUndefinedWordsRaiseCerr : Prop :=
  ∀ op a b c : Byte,
    (0x0C < op.toNat →
      decode (cmdWord op a b c) = .error (.undefinedOpcode op) ∧ RaisesCerr (cmdWord op a b c)) ∧
    (op.toNat ≤ 0x0C → (c ≠ 0 ∨ (b ≠ 0 ∧ op ≠ 0x01 ∧ op ≠ 0x04 ∧ op ≠ 0x08) ∨ (a ≠ 0 ∧ (op = 0x00 ∨ op = 0x05))) →
      decode (cmdWord op a b c) = .error (.reservedField op) ∧ RaisesCerr (cmdWord op a b c)) ∧
    (op.toNat ≤ 0x0C → c = 0 → (b = 0 ∨ op = 0x01 ∨ op = 0x04 ∨ op = 0x08) → (a = 0 ∨ (op ≠ 0x00 ∧ op ≠ 0x05)) →
      ∃ i, decode (cmdWord op a b c) = .ok i)

/-- Words written out from the forms of 30_encoding.md R52 and the vectors of 95_test_vectors.md. -/
def Obligations.WrittenOutWordsDecode : Prop :=
  decode 0x00000000 = .ok .nop ∧ decode 0x01FD7E00 = .ok (.txwr 253 0x7E) ∧ decode 0x02030000 = .ok (.txrd 3) ∧
  decode 0x03040000 = .ok (.rxrd 4) ∧ decode 0x04057E00 = .ok (.send 5 0x7E) ∧ decode 0x05000000 = .ok .service ∧
  decode 0x06080000 = .ok (.rdreg 8) ∧ decode 0x077E0000 = .ok (.crctab 0x7E) ∧
  decode 0x089B0200 = .ok (.crceval 0x9B 0x02) ∧ decode 0x09FE0000 = .ok (.crctx 254) ∧
  decode 0x0A050000 = .ok (.crcrx 5) ∧ decode 0x0BFF0000 = .ok (.ovh 255) ∧ decode 0x0C050000 = .ok (.lasts 5)

/-! ### The step -/

/-- When the oldest input is a command word that decodes, the step is that command at the state whose port has
taken the word (20_memory.md R34). That the port is the list `inputs` is the model's form (log entry 1). -/
def Obligations.StepRunsTheIssuedCommand : Prop :=
  ∀ (s : State) (w : Word) (rest : List Event) (i : Instr),
    s.inputs = .command w :: rest → decode w = .ok i → step s = exec i { s with inputs := rest }

/-- The link agents and the idle step: arrivals go to the tail of RXQ, removals come from the head of TXQ, and with
no input the block holds its state (10_state.md R23, R24; 20_memory.md R35; 60_exceptions.md R102). The event list
is the model's form of the environment (log entry 1). -/
def Obligations.LinkAgentsTouchOnlyTheQueues : Prop :=
  ∀ (s : State) (rest : List Event),
    (s.inputs = [] → step s = .next s) ∧
    (∀ bytes, s.inputs = .linkIn bytes :: rest → step s = .next { s with inputs := rest, rxq := s.rxq ++ bytes }) ∧
    (∀ taken kept, s.txq = taken ++ kept → s.inputs = .linkOut taken.length :: rest →
      step s = .next { s with inputs := rest, txq := kept })

/-- Reset gives every register its reset value, builds CT, and leaves the buffers and the queues alone; at launch
TXBUF, RXBUF and RXQ are the launch parameters and TXQ is empty (70_reset_and_hazards.md R103). -/
def Obligations.ResetGivesTheResetValues : Prop :=
  (∀ (s : State) (rest : List Event), s.inputs = .reset :: rest →
    step s = .next { s with
      inputs := rest, ct := buildTable s.poly, pState := .findStart, pId := 0x00, pOvh := 0x00, pLen := 0x00,
      pCur := 0x00, status := .continuing, bytesRead := 0x00, ups := false }) ∧
  (∀ p : Launch,
    (State.launch p).poly = p.poly ∧ (State.launch p).ct = buildTable p.poly ∧
    (State.launch p).txbuf = p.initTx ∧ (State.launch p).rxbuf = p.initRx ∧ (State.launch p).rxq = p.initRxq ∧
    (State.launch p).txq = [] ∧ (State.launch p).pState = .findStart ∧ (State.launch p).pId = 0x00 ∧
    (State.launch p).pOvh = 0x00 ∧ (State.launch p).pLen = 0x00 ∧ (State.launch p).pCur = 0x00 ∧
    (State.launch p).status.code = 0x03 ∧ (State.launch p).bytesRead = 0x00 ∧ (State.launch p).faultReg = 0x00) ∧
  State.reset.poly = 0x9B

/-- R29: an address above 253, a length above 254 or a selector above 8 raises CERR and changes no state; every CT
index is legal, and OVH and LASTS answer 0xFF for a length above 254. -/
def Obligations.OutOfRangeOperandsRaiseCerr : Prop :=
  ∀ (s : State) (a d : Byte),
    (253 < a.toNat →
      exec (.txwr a d) s = .next { s with responses := s.responses ++ [0x00010000#32] } ∧
      exec (.txrd a) s = .next { s with responses := s.responses ++ [0x00010000#32] } ∧
      exec (.rxrd a) s = .next { s with responses := s.responses ++ [0x00010000#32] }) ∧
    (8 < a.toNat → exec (.rdreg a) s = .next { s with responses := s.responses ++ [0x00010000#32] }) ∧
    (254 < a.toNat →
      exec (.crctx a) s = .next { s with responses := s.responses ++ [0x00010000#32] } ∧
      exec (.crcrx a) s = .next { s with responses := s.responses ++ [0x00010000#32] } ∧
      exec (.ovh a) s = .next { s with responses := s.responses ++ [0x000000FF#32] } ∧
      exec (.lasts a) s = .next { s with responses := s.responses ++ [0x000000FF#32] }) ∧
    (∃ v : Byte, exec (.crctab a) s = .next { s with responses := s.responses ++ [BitVec.setWidth 32 v] })

/-- R93: a command word whose response has the CERR bit changed nothing, and its response is 0x00010000. -/
def Obligations.CerrChangesNoState : Prop :=
  ∀ (s t : State) (w r : Word) (rest : List Event),
    s.inputs = .command w :: rest → step s = .next t → t.responses = s.responses ++ [r] → r.getLsbD 16 = true →
      r = 0x00010000#32 ∧ t = { s with inputs := rest, responses := s.responses ++ [0x00010000#32] }

/-- Every command that completes gives one response: bits 31:17 are 0, STS is 0 except for SERVICE, and SERVICE's
response carries BYTES_READ and STATUS and no CERR (30_encoding.md R46; 60_exceptions.md R95). -/
def Obligations.EveryCommandGivesOneResponse : Prop :=
  ∀ (i : Instr) (s t : State), exec i s = .next t →
    ∃ r : Word, t.responses = s.responses ++ [r] ∧ r.extractLsb' 17 15 = 0 ∧
      (i ≠ .service → r.extractLsb' 8 8 = 0) ∧
      (i = .service → r.extractLsb' 0 8 = t.bytesRead ∧ r.extractLsb' 8 8 = t.status.code ∧ r.getLsbD 16 = false)

/-! ### Control and buffer access -/

/-- R89: NOP answers 0 and changes nothing; a NOP word with any operand field nonzero raises CERR. -/
def Obligations.NopChangesNothing : Prop :=
  (∀ s : State, exec .nop s = .next { s with responses := s.responses ++ [0x00000000#32] }) ∧
  decode 0x00000000 = .ok .nop ∧
  (∀ a b c : Byte, a ≠ 0 ∨ b ≠ 0 ∨ c ≠ 0 → RaisesCerr (cmdWord 0x00 a b c))

/-- R86: TXWR writes the addressed byte of TXBUF and no other byte or state, and answers 0; an address above 253 or a
nonzero C raises CERR and writes nothing. -/
def Obligations.TxwrWritesOneByteOrRaisesCerr : Prop :=
  ∀ a d : Byte,
    (a.toNat ≤ 253 → ∀ s : State, ∃ t, exec (.txwr a d) s = .next t ∧
      t.txbuf.read a.toNat = d ∧ (∀ x, x ≠ a.toNat → t.txbuf.read x = s.txbuf.read x) ∧
      t = { s with txbuf := t.txbuf, responses := s.responses ++ [0x00000000#32] }) ∧
    decode (cmdWord 0x01 a d 0) = .ok (.txwr a d) ∧
    (∀ c : Byte, 253 < a.toNat ∨ c ≠ 0 → RaisesCerr (cmdWord 0x01 a d c))

/-- R87: TXRD answers the addressed byte of TXBUF and changes nothing; an address above 253 or a nonzero B or C
raises CERR. -/
def Obligations.TxrdAnswersTheByteOrRaisesCerr : Prop :=
  ∀ a : Byte,
    (a.toNat ≤ 253 → ∀ s : State, exec (.txrd a) s =
      .next { s with responses := s.responses ++ [BitVec.setWidth 32 (s.txbuf.read a.toNat)] }) ∧
    decode (cmdWord 0x02 a 0 0) = .ok (.txrd a) ∧
    (∀ b c : Byte, 253 < a.toNat ∨ b ≠ 0 ∨ c ≠ 0 → RaisesCerr (cmdWord 0x02 a b c))

/-- R88: RXRD answers the addressed byte of RXBUF and changes nothing; an address above 253 or a nonzero B or C
raises CERR. -/
def Obligations.RxrdAnswersTheByteOrRaisesCerr : Prop :=
  ∀ a : Byte,
    (a.toNat ≤ 253 → ∀ s : State, exec (.rxrd a) s =
      .next { s with responses := s.responses ++ [BitVec.setWidth 32 (s.rxbuf.read a.toNat)] }) ∧
    decode (cmdWord 0x03 a 0 0) = .ok (.rxrd a) ∧
    (∀ b c : Byte, 253 < a.toNat ∨ b ≠ 0 ∨ c ≠ 0 → RaisesCerr (cmdWord 0x03 a b c))

/-- R90 with the selectors of R51 and the codes of R49 and R50: RDREG answers the selected register and changes
nothing; a selector above 8 or a nonzero B or C raises CERR. -/
def Obligations.RdregAnswersTheSelectedRegister : Prop :=
  (∀ (s : State) (v : Byte), ∀ sel : Byte,
    ((sel = 0 ∧ v = (match s.status with
        | .continuing => 0x03 | .newData => 0x02 | .noData => 0x01
        | .checksumError => 0x00 | .payloadLengthError => 0xFF | .stopByteError => 0xFE)) ∨
     (sel = 1 ∧ v = s.bytesRead) ∨ (sel = 2 ∧ v = s.pId) ∨ (sel = 3 ∧ v = s.pOvh) ∨ (sel = 4 ∧ v = s.pLen) ∨
     (sel = 5 ∧ v = s.pCur) ∨
     (sel = 6 ∧ v = (match s.pState with
        | .findStart => 0 | .findId => 1 | .findOverhead => 2 | .findLength => 3
        | .findPayload => 4 | .findChecksum => 5 | .findStop => 6 | .undefined => 7)) ∨
     (sel = 7 ∧ v = (if s.ups then 0x01 else 0x00)) ∨ (sel = 8 ∧ v = s.poly)) →
    exec (.rdreg sel) s = .next { s with responses := s.responses ++ [BitVec.setWidth 32 v] }) ∧
  (∀ sel : Byte, decode (cmdWord 0x06 sel 0 0) = .ok (.rdreg sel)) ∧
  (∀ sel b c : Byte, 8 < sel.toNat ∨ b ≠ 0 ∨ c ≠ 0 → RaisesCerr (cmdWord 0x06 sel b c))

/-! ### The checksum unit -/

/-- R53: CT[i] is eight steps of the step function from the seed i. -/
def Obligations.TableEntriesAreEightDivisionSteps : Prop :=
  ∀ (poly i : Byte),
    (buildTable poly)[i.toNat]'i.isLt =
      (fun c : Byte => if c.getLsbD 7 = true then (c <<< 1) ^^^ poly else c <<< 1)^[8] i

/-- The laws of the checksum functions, for every POLY: the inferences of 41_checksum.md R56 (a) to (g), which the spec
marks as derived from R53 to R55. -/
def Obligations.ChecksumLawsHoldForEveryPolynomial : Prop :=
  (∀ poly : Byte,
    (buildTable poly)[0] = 0x00 ∧ (buildTable poly)[1] = poly ∧
    (∀ a b : Byte, (buildTable poly)[(a ^^^ b).toNat]'(a ^^^ b).isLt =
      (buildTable poly)[a.toNat]'a.isLt ^^^ (buildTable poly)[b.toNat]'b.isLt) ∧
    (∀ l : List Byte, checksumOf (buildTable poly) l =
      l.foldl (fun crc x =>
        (fun c : Byte => if c.getLsbD 7 = true then (c <<< 1) ^^^ poly else c <<< 1)^[8] (crc ^^^ x)) 0x00) ∧
    (∀ n, checksumOf (buildTable poly) (List.replicate n 0x00) = 0x00) ∧
    (∀ x : Byte, checksumOf (buildTable poly) [x] = (buildTable poly)[x.toNat]'x.isLt)) ∧
  (∀ i : Byte, (buildTable 0x00)[i.toNat]'i.isLt = 0x00) ∧
  (∀ l : List Byte, checksumOf (buildTable 0x00) l = 0x00) ∧
  checksumOf (buildTable 0x9B) [0x31, 0x32, 0x33, 0x34, 0x35, 0x36, 0x37, 0x38, 0x39] = 0xEA

/-- R57 and R58: CRCTAB answers CT[A] and CRCEVAL answers CT[A ^ B]; with CT as reset builds it, CRCTAB 0 gives 0x00,
CRCTAB 1 gives POLY and CRCEVAL of two equal bytes gives 0x00; both change nothing, and a nonzero reserved field
raises CERR. -/
def Obligations.CrctabAndCrcevalAnswerTableEntries : Prop :=
  (∀ (a b : Byte) (s : State),
    exec (.crctab a) s = .next { s with responses := s.responses ++ [BitVec.setWidth 32 (s.ct[a.toNat]'a.isLt)] } ∧
    exec (.crceval a b) s = .next { s with
      responses := s.responses ++ [BitVec.setWidth 32 (s.ct[(a ^^^ b).toNat]'(a ^^^ b).isLt)] }) ∧
  (∀ (a : Byte) (s : State), s.ct = buildTable s.poly →
    exec (.crctab 0) s = .next { s with responses := s.responses ++ [0#32] } ∧
    exec (.crctab 1) s = .next { s with responses := s.responses ++ [BitVec.setWidth 32 s.poly] } ∧
    exec (.crceval a a) s = .next { s with responses := s.responses ++ [0#32] }) ∧
  (∀ a b : Byte, decode (cmdWord 0x07 a 0 0) = .ok (.crctab a) ∧ decode (cmdWord 0x08 a b 0) = .ok (.crceval a b)) ∧
  (∀ a b c : Byte, (b ≠ 0 ∨ c ≠ 0 → RaisesCerr (cmdWord 0x07 a b c)) ∧ (c ≠ 0 → RaisesCerr (cmdWord 0x08 a b c)))

/-- R59 and R60: CRCTX and CRCRX answer the fold of Evaluate over the first A bytes of TXBUF and RXBUF and change
nothing; a length above 254 or a nonzero B or C raises CERR. -/
def Obligations.CrctxAndCrcrxFoldTheBuffers : Prop :=
  ∀ a : Byte,
    (a.toNat ≤ 254 → ∀ s : State,
      exec (.crctx a) s = .next { s with responses := s.responses ++ [BitVec.setWidth 32
        ((List.range a.toNat).foldl (fun acc k => s.ct[(acc ^^^ s.txbuf.read k).toNat]'(acc ^^^ s.txbuf.read k).isLt)
          0x00)] } ∧
      exec (.crcrx a) s = .next { s with responses := s.responses ++ [BitVec.setWidth 32
        ((List.range a.toNat).foldl (fun acc k => s.ct[(acc ^^^ s.rxbuf.read k).toNat]'(acc ^^^ s.rxbuf.read k).isLt)
          0x00)] }) ∧
    decode (cmdWord 0x09 a 0 0) = .ok (.crctx a) ∧ decode (cmdWord 0x0A a 0 0) = .ok (.crcrx a) ∧
    (∀ b c : Byte, 254 < a.toNat ∨ b ≠ 0 ∨ c ≠ 0 →
      RaisesCerr (cmdWord 0x09 a b c) ∧ RaisesCerr (cmdWord 0x0A a b c))

/-! ### The stuffer -/

/-- R61 and R67: OVH answers the lowest index below A that holds 0x7E, or 0xFF where there is none or A is above 254,
and changes nothing; a nonzero B or C raises CERR. -/
def Obligations.OvhAnswersTheFirstSentinel : Prop :=
  (∀ (a : Byte) (s : State),
    (∀ i, a.toNat ≤ 254 → i < a.toNat → s.txbuf.read i = 0x7E → (∀ j, j < i → s.txbuf.read j ≠ 0x7E) →
      computeOverhead s.txbuf a.toNat = BitVec.ofNat 8 i ∧
      exec (.ovh a) s = .next { s with responses := s.responses ++ [BitVec.ofNat 32 i] }) ∧
    (254 < a.toNat ∨ (∀ j, j < a.toNat → s.txbuf.read j ≠ 0x7E) →
      computeOverhead s.txbuf a.toNat = 0xFF ∧
      exec (.ovh a) s = .next { s with responses := s.responses ++ [0x000000FF#32] })) ∧
  (∀ a : Byte, decode (cmdWord 0x0B a 0 0) = .ok (.ovh a)) ∧
  (∀ a b c : Byte, b ≠ 0 ∨ c ≠ 0 → RaisesCerr (cmdWord 0x0B a b c))

/-- R62 and R68: LASTS answers the highest index below A that holds 0x7E, or 0xFF where there is none or A is above
254, and changes nothing; a nonzero B or C raises CERR. -/
def Obligations.LastsAnswersTheLastSentinel : Prop :=
  (∀ (a : Byte) (s : State),
    (∀ i, a.toNat ≤ 254 → i < a.toNat → s.txbuf.read i = 0x7E →
      (∀ j, i < j → j < a.toNat → s.txbuf.read j ≠ 0x7E) →
      findLastSentinel s.txbuf a.toNat = some i ∧
      exec (.lasts a) s = .next { s with responses := s.responses ++ [BitVec.ofNat 32 i] }) ∧
    (254 < a.toNat ∨ (∀ j, j < a.toNat → s.txbuf.read j ≠ 0x7E) →
      findLastSentinel s.txbuf a.toNat = none ∧
      exec (.lasts a) s = .next { s with responses := s.responses ++ [0x000000FF#32] })) ∧
  (∀ a : Byte, decode (cmdWord 0x0C a 0 0) = .ok (.lasts a)) ∧
  (∀ a b c : Byte, b ≠ 0 ∨ c ≠ 0 → RaisesCerr (cmdWord 0x0C a b c))

/-- The result of 42_stuffing.md R63 that the spec marks as derived from its pseudocode: after Stuff the last sentinel slot holds 0, every other sentinel slot the distance to the next sentinel, and
every other byte is unchanged, those at or above the length too. -/
def Obligations.StuffChainsTheSentinels : Prop :=
  ∀ (m : Memory) (n : Nat), n ≤ 254 →
    (∀ i, n ≤ i → (stuff m n).read i = m.read i) ∧
    (∀ i, i < n → m.read i ≠ 0x7E → (stuff m n).read i = m.read i) ∧
    (∀ i, i < n → m.read i = 0x7E → (∀ j, i < j → j < n → m.read j ≠ 0x7E) → (stuff m n).read i = 0x00) ∧
    (∀ i j, i < j → j < n → m.read i = 0x7E → m.read j = 0x7E → (∀ k, i < k → k < j → m.read k ≠ 0x7E) →
      ((stuff m n).read i).toNat = j - i)

/-- R64: the walk of Destuff, one entry at a time: at index 254 or above it ends without a write, at a zero it writes
the sentinel and ends, else it writes the sentinel and goes on at the index plus what it read. -/
def Obligations.DestuffWalksTheChain : Prop :=
  ∀ (m : Memory) (start : Byte),
    (254 ≤ start.toNat → destuff m start = m) ∧
    (start.toNat < 254 → m.read start.toNat = 0x00 → destuff m start = m.write start.toNat 0x7E) ∧
    (start.toNat < 254 → m.read start.toNat ≠ 0x00 → 254 ≤ start.toNat + (m.read start.toNat).toNat →
      destuff m start = m.write start.toNat 0x7E) ∧
    (start.toNat < 254 → m.read start.toNat ≠ 0x00 → start.toNat + (m.read start.toNat).toNat < 254 →
      destuff m start = destuff (m.write start.toNat 0x7E) (start + m.read start.toNat))

/-- The round trip of 42_stuffing.md R65, which the spec marks as derived: destuffing a stuffed buffer from its overhead byte gives the buffer back, at every index. -/
def Obligations.DestuffUndoesStuff : Prop :=
  ∀ (m : Memory) (n : Nat), n ≤ 254 →
    (∀ x, (destuff (stuff m n) (computeOverhead m n)).read x = m.read x) ∧
    (m.wf = true → destuff (stuff m n) (computeOverhead m n) = m)

/-- The properties of 42_stuffing.md R66, which the spec marks as derived: Stuff stays inside the payload and moves nothing past its end; a stuffed payload holds 0x7E exactly at a sentinel whose next sentinel is 126 further; it
can hold 0x81 and 0x00; a payload without 0x7E is unchanged and its overhead is 0xFF; stuffing again changes only
slots that hold 0x7E. -/
def Obligations.StuffedPayloadCanHoldTheSentinel : Prop :=
  (∀ (m : Memory) (n : Nat), n ≤ 254 →
    (∀ i, n ≤ i → (stuff m n).read i = m.read i) ∧
    (∀ i, i < n → ((stuff m n).read i = 0x7E ↔
      m.read i = 0x7E ∧ i + 126 < n ∧ m.read (i + 126) = 0x7E ∧ ∀ k, i < k → k < i + 126 → m.read k ≠ 0x7E)) ∧
    ((∀ i, i < n → m.read i ≠ 0x7E) → stuff m n = m ∧ computeOverhead m n = 0xFF) ∧
    (∀ i, (stuff (stuff m n) n).read i ≠ (stuff m n).read i → i < n ∧ (stuff m n).read i = 0x7E)) ∧
  (∃ m : Memory, m.wf = true ∧ (stuff m 130).read 0 = 0x81 ∧ (stuff m 130).read 129 = 0x00)

/-! ### The send path -/

/-- R69: SEND stuffs TXBUF in place, gives the frame, or the part of it that the transport's draw lets through, to TXQ,
and answers the transport's result; nothing else changes but the model's record of the draw (log entry 6); a nonzero C
raises CERR. -/
def Obligations.SendEmitsTheFrame : Prop :=
  (∀ (len id : Byte) (s : State) (n : Nat) (P F : List Byte),
    n = min len.toNat 254 → P.length = n → (∀ i, (h : i < P.length) → P[i] = (stuff s.txbuf n).read i) →
    F = [0x7E, id, computeOverhead s.txbuf n, BitVec.ofNat 8 n] ++ P ++ [checksumOf s.ct P, 0x81] →
    (s.nextWrite = .ok → exec (.send len id) s = .next { s with
      txbuf := stuff s.txbuf n, txq := s.txq ++ F, responses := s.responses ++ [0x00000001#32],
      writeResults := s.dropWrite.writeResults, draws := s.dropWrite.draws }) ∧
    (∀ k, s.nextWrite = .failed k → exec (.send len id) s = .next { s with
      txbuf := stuff s.txbuf n, txq := s.txq ++ F.take k, responses := s.responses ++ [0x00000000#32],
      writeResults := s.dropWrite.writeResults, draws := s.dropWrite.draws })) ∧
  (∀ len id : Byte, decode (cmdWord 0x04 len id 0) = .ok (.send len id)) ∧
  (∀ len id c : Byte, c ≠ 0 → RaisesCerr (cmdWord 0x04 len id c))

/-- The fields of a frame SEND emits: its length is n + 6, and OVERHEAD is 0xFF or an index below the length of a byte
0x7E (30_encoding.md R41, R43). -/
def Obligations.SentFrameFieldsAreInRange : Prop :=
  ∀ (len id : Byte) (s : State) (n : Nat), n = min len.toNat 254 →
    (s.sendFrame len id).length = n + 6 ∧
    (s.sendFrame len id)[0]? = some 0x7E ∧ (s.sendFrame len id)[1]? = some id ∧
    (s.sendFrame len id)[3]? = some (BitVec.ofNat 8 n) ∧ (s.sendFrame len id)[n + 5]? = some 0x81 ∧
    ((s.sendFrame len id)[2]? = some 0xFF ∨
      ∃ i, i < n ∧ s.txbuf.read i = 0x7E ∧ (s.sendFrame len id)[2]? = some (BitVec.ofNat 8 i))

/-- 43_send.md R70, whose second SEND the spec marks as derived: SEND leaves TXBUF[0 .. n) stuffed and TXBUF[n .. 254) unchanged, and the OVERHEAD a second SEND computes is 0xFF
unless a stuffed slot holds 0x7E. -/
def Obligations.SendLeavesTheBufferStuffed : Prop :=
  ∀ (len id : Byte) (s : State) (n : Nat), n = min len.toNat 254 → ∃ t, exec (.send len id) s = .next t ∧
    (∀ x, n ≤ x → t.txbuf.read x = s.txbuf.read x) ∧
    (∀ x, t.txbuf.read x = (stuff s.txbuf n).read x) ∧
    ((∀ i, i < n → (stuff s.txbuf n).read i ≠ 0x7E) → computeOverhead t.txbuf n = 0xFF)

/-- After a SEND of length n, CRCTX n answers the CHECKSUM byte of the frame SEND built (41_checksum.md R59). -/
def Obligations.CrctxAfterSendAnswersTheChecksum : Prop :=
  ∀ (len id : Byte) (s : State) (n : Nat), n = min len.toNat 254 → ∃ t c, exec (.send len id) s = .next t ∧
    (s.sendFrame len id)[n + 4]? = some c ∧
    exec (.crctx (BitVec.ofNat 8 n)) t = .next { t with responses := t.responses ++ [BitVec.setWidth 32 c] }

/-- Two states with the same send path: SEND leaves them with the same send path and gives the same response, whatever
their receive paths hold (10_state.md R27; 43_send.md R71). -/
def Obligations.SendDoesNotDependOnTheReceivePath : Prop :=
  ∀ (len id : Byte) (s s' : State), SameSendPath s s' →
    ∃ t t' r, exec (.send len id) s = .next t ∧ exec (.send len id) s' = .next t' ∧ SameSendPath t t' ∧
      SameReceivePath s t ∧ SameReceivePath s' t' ∧
      t.responses = s.responses ++ [r] ∧ t'.responses = s'.responses ++ [r]

/-! ### The receive path -/

/-- R74 to R80: RxStep, one clause for each row of the table of R85. -/
def Obligations.RxStepFollowsTheTable : Prop :=
  ∀ (s : State) (b : Byte),
    (s.pState = .findStart → b = 0x7E → rxStep s b = .more { s with pState := .findId }) ∧
    (s.pState = .findStart → b ≠ 0x7E → rxStep s b = .more s) ∧
    (s.pState = .findId → rxStep s b = .more { s with pId := b, pState := .findOverhead }) ∧
    (s.pState = .findOverhead → rxStep s b = .more { s with pOvh := b, pState := .findLength }) ∧
    (s.pState = .findLength → 1 ≤ b.toNat → b.toNat ≤ 254 →
      rxStep s b = .more { s with pLen := b, pCur := 0, pState := .findPayload }) ∧
    (s.pState = .findLength → b = 0x00 ∨ b = 0xFF →
      rxStep s b = .term { s with pState := .findStart } .payloadLengthError 0x00) ∧
    (s.pState = .findPayload → s.pLen.toNat ≤ 254 → s.pCur.toNat + 1 < s.pLen.toNat →
      rxStep s b = .more { s with rxbuf := s.rxbuf.write s.pCur.toNat b, pCur := s.pCur + 1 }) ∧
    (s.pState = .findPayload → s.pLen.toNat ≤ 254 → s.pCur.toNat + 1 = s.pLen.toNat →
      rxStep s b = .more { s with
        rxbuf := s.rxbuf.write s.pCur.toNat b, pCur := s.pLen, pState := .findChecksum }) ∧
    (s.pState = .findChecksum → s.pLen.toNat ≤ 254 → b = checksumOf s.ct (s.rxbuf.bytes s.pLen.toNat) →
      rxStep s b = .more { s with pState := .findStop }) ∧
    (s.pState = .findChecksum → s.pLen.toNat ≤ 254 → b ≠ checksumOf s.ct (s.rxbuf.bytes s.pLen.toNat) →
      rxStep s b = .term { s with pState := .findStart } .checksumError 0x00) ∧
    (s.pState = .findStop → b = 0x81 →
      rxStep s b = .term { s with pState := .findStart, rxbuf := destuff s.rxbuf s.pOvh } .newData s.pLen) ∧
    (s.pState = .findStop → b ≠ 0x81 →
      rxStep s b = .term { s with pState := .findStart } .stopByteError 0x00)

/-- R72: SERVICE on an empty RXQ is NoData and touches nothing else; on a nonempty RXQ it takes the head byte through
RxStep, and goes on with the bytes left, or ends with the outcome; a nonzero operand field raises CERR. -/
def Obligations.ServiceTakesTheBytesInTurn : Prop :=
  (∀ s : State, s.rxq = [] → exec .service s = .next { s with
    status := .noData, bytesRead := 0x00, responses := s.responses ++ [0x00000100#32] }) ∧
  (∀ (s : State) (b : Byte) (q : List Byte), s.rxq = b :: q →
    (∀ s', rxStep { s with rxq := q } b = .more s' → q = [] → exec .service s = .next { s' with
      status := .continuing, bytesRead := 0x00, responses := s.responses ++ [0x00000300#32] }) ∧
    (∀ s', rxStep { s with rxq := q } b = .more s' → q ≠ [] → s'.rxq = q ∧ exec .service s = exec .service s') ∧
    (∀ s' t br, rxStep { s with rxq := q } b = .term s' t br → s'.rxq = q ∧ exec .service s = .next { s' with
      status := t, bytesRead := br,
      responses := s.responses ++ [(BitVec.setWidth 32 t.code <<< 8) ||| BitVec.setWidth 32 br] }) ∧
    (∀ s', rxStep { s with rxq := q } b = .abort s' → s'.rxq = q ∧ exec .service s = .next { s' with
      status := .continuing, bytesRead := 0x00, responses := s.responses ++ [0x00000300#32] })) ∧
  decode (cmdWord 0x05 0 0 0) = .ok .service ∧
  (∀ a b c : Byte, a ≠ 0 ∨ b ≠ 0 ∨ c ≠ 0 → RaisesCerr (cmdWord 0x05 a b c))

/-- From every state that meets the invariant SERVICE completes, whatever RXQ holds, and leaves the send path, POLY, CT
and FAULT alone; RXQ loses bytes from its head only, at least one if there was one (44_receive.md R72; 10_state.md R27). -/
def Obligations.ServiceCompletesOnEveryStream : Prop :=
  ∀ s : State, Inv s → ∃ t used, exec .service s = .next t ∧ SameSendPath s t ∧ t.poly = s.poly ∧ t.ups = s.ups ∧
    t.inputs = s.inputs ∧ s.rxq = used ++ t.rxq ∧ (s.rxq ≠ [] → used ≠ [])

/-- What a SERVICE records: NoData exactly on an empty RXQ; every terminal outcome leaves FindStart, and an error leaves
BYTES_READ 0; Continue leaves BYTES_READ 0 and an empty RXQ (44_receive.md R72, R73; 60_exceptions.md R96). -/
def Obligations.ServiceRecordsItsOutcome : Prop :=
  ∀ s t : State, exec .service s = .next t →
    (t.status = .noData ↔ s.rxq = []) ∧
    (t.status = .newData ∨ t.status = .checksumError ∨ t.status = .payloadLengthError ∨ t.status = .stopByteError →
      t.pState = .findStart) ∧
    (t.status ≠ .newData → t.bytesRead = 0x00) ∧
    (t.status = .newData → t.bytesRead = t.pLen) ∧
    (t.status = .continuing → s.pState ≠ .undefined → t.rxq = [])

/-- R82: from code 7 of P_STATE, SERVICE takes one byte, sets UPS, goes to FindStart and ends with Continue and
BYTES_READ 0; nothing else changes. -/
def Obligations.UndefinedParserStateResynchronises : Prop :=
  ∀ (s : State) (b : Byte) (q : List Byte), s.pState = .undefined → s.rxq = b :: q →
    exec .service s = .next { s with
      rxq := q, ups := true, pState := .findStart, status := .continuing, bytesRead := 0x00,
      responses := s.responses ++ [0x00000300#32] }

/-- R22: FAULT reads 0x00 or 0x01; a step sets UPS only if it is a SERVICE in code 7 of P_STATE, and clears it only if
it is a reset, which does clear it; from a state that meets the invariant no step sets it. -/
def Obligations.UndefinedStateFaultIsSticky : Prop :=
  (∀ s : State, s.faultReg = 0x00 ∨ s.faultReg = 0x01) ∧
  (∀ s t : State, step s = .next t →
    (s.faultReg = 0x01 → t.faultReg = 0x01 ∨ ∃ rest, s.inputs = .reset :: rest) ∧
    (t.faultReg = 0x01 → s.faultReg = 0x01 ∨
      (s.pState = .undefined ∧ ∃ w rest, s.inputs = .command w :: rest ∧ decode w = .ok .service)) ∧
    (Inv s → t.faultReg = 0x00)) ∧
  (∀ (s : State) (rest : List Event), s.inputs = .reset :: rest → ∃ t, step s = .next t ∧ t.faultReg = 0x00)

/-- In FindStart, bytes other than 0x7E are dropped one and all: SERVICE answers Continue and changes nothing but RXQ,
STATUS and BYTES_READ (44_receive.md R74; 70_reset_and_hazards.md R104, R108). -/
def Obligations.NoiseIsDroppedInFindStart : Prop :=
  ∀ s : State, s.pState = .findStart → s.rxq ≠ [] → (∀ b ∈ s.rxq, b ≠ 0x7E) →
    exec .service s = .next { s with
      rxq := [], status := .continuing, bytesRead := 0x00, responses := s.responses ++ [0x00000300#32] }

/-- The drain of 44_receive.md R81, which the spec marks as derived: bytes that arrive in FindPayload, no more than the payload lacks, are stored at consecutive indices from P_CUR,
and the state becomes FindChecksum exactly when P_CUR reaches P_LEN. -/
def Obligations.PayloadBytesAreStoredConsecutively : Prop :=
  ∀ s : State, s.pState = .findPayload → s.pLen.toNat ≤ 254 → s.rxq ≠ [] →
    s.pCur.toNat + s.rxq.length ≤ s.pLen.toNat →
    ∃ t, exec .service s = .next t ∧
      t.pCur.toNat = s.pCur.toNat + s.rxq.length ∧
      (∀ j, (h : j < s.rxq.length) → t.rxbuf.read (s.pCur.toNat + j) = s.rxq[j]) ∧
      (∀ x, x < s.pCur.toNat ∨ s.pCur.toNat + s.rxq.length ≤ x → t.rxbuf.read x = s.rxbuf.read x) ∧
      t = { s with
        rxq := [], rxbuf := t.rxbuf, pCur := t.pCur,
        pState := if s.pCur.toNat + s.rxq.length = s.pLen.toNat then .findChecksum else .findPayload,
        status := .continuing, bytesRead := 0x00, responses := s.responses ++ [0x00000300#32] }

/-- A frame with a rejected length, a wrong checksum or a wrong stop byte: what the SERVICE that meets it records, and
that the bytes after the erroring byte stay in RXQ (60_exceptions.md R92, R96; 44_receive.md R77, R79, R80). -/
def Obligations.FrameErrorsAreRecorded : Prop :=
  ∀ (s : State) (id ovh x : Byte) (payload rest : List Byte), s.pState = .findStart →
    ((x = 0x00 ∨ x = 0xFF) → s.rxq = [0x7E, id, ovh, x] ++ rest →
      exec .service s = .next { s with
        rxq := rest, pId := id, pOvh := ovh, status := .payloadLengthError, bytesRead := 0x00,
        responses := s.responses ++ [0x0000FF00#32] }) ∧
    (1 ≤ payload.length → payload.length ≤ 254 → x ≠ checksumOf s.ct payload →
      s.rxq = [0x7E, id, ovh, BitVec.ofNat 8 payload.length] ++ payload ++ [x] ++ rest →
      ∃ t, exec .service s = .next t ∧
        (∀ j, (h : j < payload.length) → t.rxbuf.read j = payload[j]) ∧
        (∀ j, payload.length ≤ j → t.rxbuf.read j = s.rxbuf.read j) ∧
        t = { s with
          rxq := rest, rxbuf := t.rxbuf, pId := id, pOvh := ovh, pLen := BitVec.ofNat 8 payload.length,
          pCur := BitVec.ofNat 8 payload.length, status := .checksumError, bytesRead := 0x00,
          responses := s.responses ++ [0x00000000#32] }) ∧
    (1 ≤ payload.length → payload.length ≤ 254 → x ≠ 0x81 →
      s.rxq = [0x7E, id, ovh, BitVec.ofNat 8 payload.length] ++ payload ++ [checksumOf s.ct payload, x] ++ rest →
      ∃ t, exec .service s = .next t ∧
        (∀ j, (h : j < payload.length) → t.rxbuf.read j = payload[j]) ∧
        (∀ j, payload.length ≤ j → t.rxbuf.read j = s.rxbuf.read j) ∧
        t = { s with
          rxq := rest, rxbuf := t.rxbuf, pId := id, pOvh := ovh, pLen := BitVec.ofNat 8 payload.length,
          pCur := BitVec.ofNat 8 payload.length, status := .stopByteError, bytesRead := 0x00,
          responses := s.responses ++ [0x0000FE00#32] })

/-- Resync: from FindStart, whatever the registers hold, one SERVICE drops bytes without a 0x7E, parses the well-formed
frame that follows, ends with NewData, and leaves the bytes after the frame in RXQ (44_receive.md R73 and R83, which
the spec marks as derived). -/
def Obligations.WellFormedFrameAfterNoiseIsDelivered : Prop :=
  ∀ (s : State) (noise payload rest : List Byte) (id ovh : Byte),
    s.pState = .findStart → (∀ b ∈ noise, b ≠ 0x7E) → 1 ≤ payload.length → payload.length ≤ 254 →
    s.rxq = noise ++ [0x7E, id, ovh, BitVec.ofNat 8 payload.length] ++ payload
      ++ [checksumOf s.ct payload, 0x81] ++ rest →
    ∃ t m, exec .service s = .next t ∧
      (∀ j, (h : j < payload.length) → Memory.read m j = payload[j]) ∧
      (∀ j, payload.length ≤ j → Memory.read m j = s.rxbuf.read j) ∧
      t = { s with
        rxq := rest, rxbuf := destuff m ovh, pId := id, pOvh := ovh, pLen := BitVec.ofNat 8 payload.length,
        pCur := BitVec.ofNat 8 payload.length, status := .newData, bytesRead := BitVec.ofNat 8 payload.length,
        responses := s.responses ++ [0x00000200#32 ||| BitVec.ofNat 32 payload.length] }

/-- A stream cut in two at any place where the first part ends no frame: two SERVICEs, one for each part, end in the
state one SERVICE of the whole ends in, and the last response is the same (10_state.md R26; 44_receive.md R78, R81; the spec
gives it as a consequence). -/
def Obligations.SplittingAStreamChangesNoOutcome : Prop :=
  ∀ (s t : State) (first later : List Byte),
    s.rxq = first ++ later → s.pState ≠ .undefined → first ≠ [] → later ≠ [] →
    exec .service { s with rxq := first } = .next t → t.status = .continuing →
    (∀ u, exec .service s = .next u ↔
      ∃ u' r, u'.responses = t.responses ++ [r] ∧ u = { u' with responses := s.responses ++ [r] } ∧
        exec .service { t with rxq := later } = .next u')

/-- Loopback: SEND of n bytes, its frame carried to RXQ in any pieces with a SERVICE after each: every call before the
last answers Continue, the last answers NewData with n bytes, P_ID is the id and RXBUF[0..n) is the payload as it was
before SEND stuffed it (44_receive.md R84, which the spec marks as derived). -/
def Obligations.LoopbackDeliversThePayload : Prop :=
  ∀ (len id : Byte) (s : State), 1 ≤ len.toNat → len.toNat ≤ 254 → s.pState = .findStart → s.rxq = [] →
    s.nextWrite = .ok →
    ∃ t F, exec (.send len id) s = .next t ∧ t.txq = s.txq ++ F ∧
      ∀ (pieces : List (List Byte)) (last : List Byte), (∀ p ∈ pieces, p ≠ []) → last ≠ [] →
        pieces.flatten ++ last = F →
        ∃ u, serviceArrivals (pieces ++ [last]) t = .next u ∧
          u.responses = t.responses ++ List.replicate pieces.length 0x00000300#32
            ++ [0x00000200#32 ||| BitVec.setWidth 32 len] ∧
          u.status = .newData ∧ u.bytesRead = len ∧ u.pId = id ∧ u.pState = .findStart ∧ u.rxq = [] ∧
          (∀ x, x < len.toNat → u.rxbuf.read x = s.txbuf.read x)

/-- Two states with the same receive path: SERVICE stops on both or on neither, leaves them with the same receive path,
and gives the same response, whatever their send paths hold (10_state.md R27). -/
def Obligations.ServiceDoesNotDependOnTheSendPath : Prop :=
  ∀ s s' t : State, SameReceivePath s s' → exec .service s = .next t →
    ∃ t' r, exec .service s' = .next t' ∧ SameReceivePath t t' ∧ SameSendPath s t ∧ SameSendPath s' t' ∧
      t.responses = s.responses ++ [r] ∧ t'.responses = s'.responses ++ [r]

/-! ### Whole-machine rules -/

/-- The launch state meets the invariant for every POLY and every launch content in canonical form. -/
def Obligations.LaunchMeetsTheInvariant : Prop :=
  ∀ p : Launch, p.initTx.wf = true → p.initRx.wf = true → Inv (State.launch p)

/-- Every step keeps the invariant: CT is BuildTable(POLY), the buffers are in canonical form, P_STATE is one of the
seven states, UPS is clear, and the cursor, the length and BYTES_READ stay in their ranges (10_state.md R12, R15, R18,
R19, R21, R22). The canonical form is the model's own. -/
def Obligations.EveryStepKeepsTheInvariant : Prop :=
  ∀ s t : State, Inv s → step s = .next t → Inv t

/-- From a state that meets the invariant every step answers a next state, whatever command word or link action comes:
no step faults or is refused (20_memory.md R30; 93_implementation_defined.md). -/
def Obligations.NoStepStops : Prop :=
  ∀ s : State, Inv s → ∃ t, step s = .next t

/-- Which command writes which state: the table of 10_state.md R27, which the spec marks as derived. The frame of every
command for `inputs`, `writeResults` and `draws` is the model's own (log entries 1 and 6). -/
def Obligations.OnlyTheListedCommandsWriteEachState : Prop :=
  ∀ (i : Instr) (s t : State), exec i s = .next t →
    t.poly = s.poly ∧ t.ct = s.ct ∧ t.inputs = s.inputs ∧
    ((∀ a d, i ≠ .txwr a d) → (∀ len id, i ≠ .send len id) → t.txbuf = s.txbuf) ∧
    ((∀ len id, i ≠ .send len id) → t.txq = s.txq ∧ t.writeResults = s.writeResults ∧ t.draws = s.draws) ∧
    (i ≠ .service → SameReceivePath s t) ∧
    (i = .service → SameSendPath s t)

/-- R33: the commands that only read complete or raise CERR, change no state, and issued twice answer the same word
twice; OVH and LASTS are among them. A SEND issued twice, its whole frame sent both times, can emit two different
frames, and a SERVICE issued twice can end with two different outcomes. -/
def Obligations.ReadsHaveNoSideEffects : Prop :=
  (∀ (i : Instr) (s : State), readsOnly i = true →
    ∃ r, exec i s = .next { s with responses := s.responses ++ [r] } ∧
      exec i { s with responses := s.responses ++ [r] } = .next { s with responses := s.responses ++ [r, r] }) ∧
  (∃ (s t u : State) (F F' : List Byte), s.nextWrite = .ok ∧ t.nextWrite = .ok ∧
    exec (.send 1 0) s = .next t ∧ exec (.send 1 0) t = .next u ∧
    t.txq = s.txq ++ F ∧ u.txq = t.txq ++ F' ∧ F ≠ F') ∧
  (∃ s t u : State, exec .service s = .next t ∧ exec .service t = .next u ∧ t.status ≠ u.status)

/-- 20_memory.md R36, which the spec marks as derived: RXQ and TXQ are first-in first-out: a command takes bytes only from the head of RXQ and adds bytes only to the
tail of TXQ. -/
def Obligations.QueuesAreFirstInFirstOut : Prop :=
  ∀ (i : Instr) (s t : State), exec i s = .next t →
    (∃ used, s.rxq = used ++ t.rxq) ∧ (∃ added, t.txq = s.txq ++ added)

/-- R12: CT is BuildTable(POLY) at launch and after every reset, and no step, whatever it is, changes POLY or such a
CT. -/
def Obligations.TableAndPolynomialNeverChange : Prop :=
  (∀ p : Launch, (State.launch p).ct = buildTable p.poly) ∧
  (∀ (s : State) (rest : List Event), s.inputs = .reset :: rest →
    ∃ t, step s = .next t ∧ t.poly = s.poly ∧ t.ct = buildTable s.poly) ∧
  (∀ s t : State, s.ct = buildTable s.poly → step s = .next t → t.poly = s.poly ∧ t.ct = s.ct)

/-- Two buffers in canonical form that read alike at addresses 0 to 253 are the same data (the model's own form of
TXBUF and RXBUF, log entry 7; 20_memory.md R28). -/
def Obligations.CanonicalBuffersThatReadAlikeAreEqual : Prop :=
  ∀ m m' : Memory, m.wf = true → m'.wf = true → (∀ a, a < 254 → m.read a = m'.read a) → m = m'

/-- WRITERAW expands, for every offset and byte list that fit, to commands that store the bytes at consecutive
addresses and touch nothing else, and READRAW to commands that answer the bytes there; the assembler rejects both above
254 (30_encoding.md R52). -/
def Obligations.WriteRawThenReadRaw : Prop :=
  ∀ (a : Nat) (ds : List Byte) (s : State),
    (254 < a + ds.length → writeRaw a ds = none ∧ readRaw a ds.length = none) ∧
    (a + ds.length ≤ 254 → ∃ is js t u, writeRaw a ds = some is ∧ execAll is s = .next t ∧
      (∀ j, (h : j < ds.length) → t.txbuf.read (a + j) = ds[j]) ∧
      (∀ x, x < a ∨ a + ds.length ≤ x → t.txbuf.read x = s.txbuf.read x) ∧
      t = { s with txbuf := t.txbuf, responses := s.responses ++ List.replicate ds.length 0x00000000#32 } ∧
      readRaw a ds.length = some js ∧ execAll js s = .next u ∧
      u = { s with responses :=
        s.responses ++ (List.range ds.length).map fun j => BitVec.setWidth 32 (s.rxbuf.read (a + j)) })

/-- Blocks share no state: a step of one leaves every other as it is (60_exceptions.md R100). That a system is a list of
blocks is the model's form (log entry 14). -/
def Obligations.BlocksShareNoState : Prop :=
  ∀ (k : Nat) (sys sys' : System), systemStep k sys = .next sys' →
    sys'.length = sys.length ∧ (∀ j, j ≠ k → sys'[j]? = sys[j]?) ∧
    (∀ s, sys[k]? = some s → ∃ t, step s = .next t ∧ sys'[k]? = some t)
end

