-- ==== Sys2Proof/Laws/Decode.lean ====
section
/-! SUPPORT. The fields and the reserved bits of a built command word, and the decoder on one. -/

namespace Sys2Proof

theorem cmdWord_toNat (op a b c : Byte) :
    (cmdWord op a b c).toNat = ((op.toNat * 256 + a.toNat) * 256 + b.toNat) * 256 + c.toNat := by
  have append_byte : ∀ {n : Nat} (x : BitVec n) (y : Byte), (x ++ y).toNat = x.toNat * 256 + y.toNat := by
    intro n x y
    rw [BitVec.toNat_append, ← Nat.shiftLeft_add_eq_or_of_lt y.isLt, Nat.shiftLeft_eq]
  show (op ++ a ++ b ++ c).toNat = _
  rw [append_byte, append_byte, append_byte]

@[simp] theorem opField_cmdWord (op a b c : Byte) : opField (cmdWord op a b c) = op := by
  apply BitVec.eq_of_toNat_eq
  simp only [opField, BitVec.extractLsb'_toNat, cmdWord_toNat, Nat.shiftRight_eq_div_pow]
  omega

@[simp] theorem aField_cmdWord (op a b c : Byte) : aField (cmdWord op a b c) = a := by
  apply BitVec.eq_of_toNat_eq
  simp only [aField, BitVec.extractLsb'_toNat, cmdWord_toNat, Nat.shiftRight_eq_div_pow]
  omega

@[simp] theorem bField_cmdWord (op a b c : Byte) : bField (cmdWord op a b c) = b := by
  apply BitVec.eq_of_toNat_eq
  simp only [bField, BitVec.extractLsb'_toNat, cmdWord_toNat, Nat.shiftRight_eq_div_pow]
  omega

@[simp] theorem cField_cmdWord (op a b c : Byte) : cField (cmdWord op a b c) = c := by
  apply BitVec.eq_of_toNat_eq
  simp only [cField, BitVec.extractLsb'_toNat, cmdWord_toNat, Nat.shiftRight_eq_div_pow]
  omega

/-- A word is its four fields. -/
theorem cmdWord_fields (w : Word) : cmdWord (opField w) (aField w) (bField w) (cField w) = w := by
  apply BitVec.eq_of_toNat_eq
  simp only [opField, aField, bField, cField, BitVec.extractLsb'_toNat, cmdWord_toNat, Nat.shiftRight_eq_div_pow]
  omega

theorem and_lowMask_eq_zero (w : Word) (k : Nat) (hk : k < 32) :
    w &&& BitVec.ofNat 32 (2 ^ k - 1) = 0#32 ↔ w.toNat % 2 ^ k = 0 := by
  rw [← BitVec.toNat_inj, BitVec.toNat_and, BitVec.toNat_ofNat,
    Nat.mod_eq_of_lt (show 2 ^ k - 1 < 2 ^ 32 by have := Nat.pow_lt_pow_right (show 1 < 2 by omega) hk; omega),
    Nat.and_two_pow_sub_one_eq_mod]
  simp

/-- The reserved bits of a row without operands: A, B and C. -/
@[simp] theorem cmdWord_and_abc (op a b c : Byte) :
    cmdWord op a b c &&& 0x00FFFFFF#32 = 0#32 ↔ a = 0#8 ∧ b = 0#8 ∧ c = 0#8 := by
  rw [show (0x00FFFFFF#32) = BitVec.ofNat 32 (2 ^ 24 - 1) by decide, and_lowMask_eq_zero _ 24 (by decide),
    cmdWord_toNat, ← BitVec.toNat_inj, ← BitVec.toNat_inj, ← BitVec.toNat_inj]
  simp only [BitVec.toNat_ofNat]
  omega

/-- The reserved bits of a row with operand A: B and C. -/
@[simp] theorem cmdWord_and_bc (op a b c : Byte) :
    cmdWord op a b c &&& 0x0000FFFF#32 = 0#32 ↔ b = 0#8 ∧ c = 0#8 := by
  rw [show (0x0000FFFF#32) = BitVec.ofNat 32 (2 ^ 16 - 1) by decide, and_lowMask_eq_zero _ 16 (by decide),
    cmdWord_toNat, ← BitVec.toNat_inj, ← BitVec.toNat_inj]
  simp only [BitVec.toNat_ofNat]
  omega

/-- The reserved bits of a row with operands A and B: C. -/
@[simp] theorem cmdWord_and_c (op a b c : Byte) : cmdWord op a b c &&& 0x000000FF#32 = 0#32 ↔ c = 0#8 := by
  rw [show (0x000000FF#32) = BitVec.ofNat 32 (2 ^ 8 - 1) by decide, and_lowMask_eq_zero _ 8 (by decide),
    cmdWord_toNat, ← BitVec.toNat_inj]
  simp only [BitVec.toNat_ofNat]
  omega

/-- The decoder's reserved-field check, by cases. -/
theorem withReservedZero_eq_ok {w reserved : Word} {i j : Instr} :
    withReservedZero w reserved i = .ok j ↔ w &&& reserved = 0#32 ∧ i = j := by
  unfold withReservedZero; split <;> simp_all

theorem withReservedZero_of_ne {w reserved : Word} {i : Instr} (h : ¬ w &&& reserved = 0#32) :
    withReservedZero w reserved i = .error (.reservedField (opField w)) := by
  unfold withReservedZero; rw [if_neg h]

end Sys2Proof
end

