-- ==== Sys2Proof/Laws/Memory.lean ====
section
/-! SUPPORT. The laws of a buffer: read after write, the canonical form, and the byte list of the first addresses. -/

namespace Sys2Proof.Machine

@[simp] theorem Memory.read_nil (a : Nat) : Memory.read [] a = Config.UNLISTED := rfl

theorem Memory.read_cons (x : Nat) (v : Byte) (m : Memory) (a : Nat) :
    Memory.read ((x, v) :: m) a = if x = a then v else Memory.read m a := rfl

theorem Memory.read_eraseCell (m : Memory) (a x : Nat) :
    (m.eraseCell a).read x = if x = a then Config.UNLISTED else m.read x := by
  induction m with
  | nil => simp [Memory.eraseCell]
  | cons c m ih =>
    obtain ⟨y, w⟩ := c
    unfold Memory.eraseCell at ih ⊢
    by_cases hy : y = a
    · subst hy
      simp only [List.filter_cons, bne_self_eq_false, Bool.false_eq_true, if_false, ih, Memory.read_cons]
      split <;> simp_all [eq_comm]
    · have : (y != a) = true := by simpa using hy
      simp only [List.filter_cons, this, if_true, Memory.read_cons, ih]
      split <;> simp_all

theorem Memory.read_insertCell (m : Memory) (a x : Nat) (v : Byte) (h : m.read a = Config.UNLISTED)
    (ha : ∀ c ∈ m, c.1 ≠ a) :
    (m.insertCell a v).read x = if x = a then v else m.read x := by
  induction m with
  | nil => simp [Memory.insertCell, Memory.read_cons, eq_comm]
  | cons c m ih =>
    obtain ⟨y, w⟩ := c
    have hya : y ≠ a := ha (y, w) (by simp)
    simp only [Memory.read_cons, hya, if_false] at h
    unfold Memory.insertCell
    split
    · simp only [Memory.read_cons]; split <;> simp_all [eq_comm]
    · rw [Memory.read_cons, ih h (fun c hc => ha c (by simp [hc])), Memory.read_cons]
      split <;> simp_all

theorem Memory.eraseCell_mem (m : Memory) (a : Nat) : ∀ c ∈ m.eraseCell a, c.1 ≠ a := by
  simp [Memory.eraseCell]

/-- Read after write, at every address and for every list. -/
theorem Memory.read_write (m : Memory) (a x : Nat) (v : Byte) :
    (m.write a v).read x = if x = a then v else m.read x := by
  unfold Memory.write
  split
  · rw [Memory.read_eraseCell]; simp_all
  · rw [Memory.read_insertCell _ _ _ _ (by simp [Memory.read_eraseCell]) (m.eraseCell_mem a), Memory.read_eraseCell]
    split <;> rfl

@[simp] theorem Memory.read_write_same (m : Memory) (a : Nat) (v : Byte) : (m.write a v).read a = v := by
  simp [Memory.read_write]

theorem Memory.read_write_other (m : Memory) (a x : Nat) (v : Byte) (h : x ≠ a) :
    (m.write a v).read x = m.read x := by simp [Memory.read_write, h]

/-! ### The canonical form -/

theorem Memory.wfFrom_cons (lo x : Nat) (v : Byte) (m : Memory) :
    Memory.wfFrom lo ((x, v) :: m) = true ↔
      lo ≤ x ∧ x < Config.MAX_PAYLOAD ∧ v ≠ Config.UNLISTED ∧ Memory.wfFrom (x + 1) m = true := by
  simp [Memory.wfFrom, and_assoc]

theorem Memory.wfFrom_mono {lo lo' : Nat} {m : Memory} (h : Memory.wfFrom lo m = true) (hle : lo' ≤ lo) :
    Memory.wfFrom lo' m = true := by
  cases m with
  | nil => rfl
  | cons c m =>
    obtain ⟨x, v⟩ := c
    rw [Memory.wfFrom_cons] at h ⊢
    exact ⟨by omega, h.2⟩

theorem Memory.wfFrom_eraseCell {lo : Nat} {m : Memory} (a : Nat) (h : Memory.wfFrom lo m = true) :
    Memory.wfFrom lo (m.eraseCell a) = true := by
  induction m generalizing lo with
  | nil => rfl
  | cons c m ih =>
    obtain ⟨x, v⟩ := c
    rw [Memory.wfFrom_cons] at h
    unfold Memory.eraseCell at ih ⊢
    rw [List.filter_cons]
    split
    · rw [Memory.wfFrom_cons]; exact ⟨h.1, h.2.1, h.2.2.1, ih h.2.2.2⟩
    · exact Memory.wfFrom_mono (ih h.2.2.2) (by omega)

theorem Memory.wfFrom_insertCell {lo : Nat} {m : Memory} (a : Nat) (v : Byte) (h : Memory.wfFrom lo m = true)
    (hlo : lo ≤ a) (ha : a < Config.MAX_PAYLOAD) (hv : v ≠ Config.UNLISTED) (hm : ∀ c ∈ m, c.1 ≠ a) :
    Memory.wfFrom lo (m.insertCell a v) = true := by
  induction m generalizing lo with
  | nil => rw [Memory.insertCell, Memory.wfFrom_cons]; exact ⟨hlo, ha, hv, rfl⟩
  | cons c m ih =>
    obtain ⟨x, w⟩ := c
    rw [Memory.wfFrom_cons] at h
    have hxa : x ≠ a := hm (x, w) (by simp)
    unfold Memory.insertCell
    split
    · rw [Memory.wfFrom_cons, Memory.wfFrom_cons]
      exact ⟨hlo, ha, hv, by omega, h.2⟩
    · rw [Memory.wfFrom_cons]
      exact ⟨h.1, h.2.1, h.2.2.1, ih h.2.2.2 (by omega) (fun c hc => hm c (by simp [hc]))⟩

/-- A write inside the buffer keeps the canonical form. -/
theorem Memory.wf_write {m : Memory} (a : Nat) (v : Byte) (h : m.wf = true) (ha : a < 254) :
    (m.write a v).wf = true := by
  unfold Memory.write Memory.wf at *
  split
  · exact Memory.wfFrom_eraseCell a h
  · rename_i hv
    exact Memory.wfFrom_insertCell a v (Memory.wfFrom_eraseCell a h) (Nat.zero_le _) ha hv (m.eraseCell_mem a)

/-- Below its lower bound a canonical list names nothing. -/
theorem Memory.read_below {lo : Nat} {m : Memory} (h : Memory.wfFrom lo m = true) {a : Nat} (ha : a < lo) :
    m.read a = Config.UNLISTED := by
  induction m generalizing lo with
  | nil => rfl
  | cons c m ih =>
    obtain ⟨x, v⟩ := c
    rw [Memory.wfFrom_cons] at h
    rw [Memory.read_cons, if_neg (by omega), ih h.2.2.2 (by omega)]

/-- At and above the capacity a canonical list names nothing. -/
theorem Memory.read_above {lo : Nat} {m : Memory} (h : Memory.wfFrom lo m = true) {a : Nat} (ha : 254 ≤ a) :
    m.read a = Config.UNLISTED := by
  induction m generalizing lo with
  | nil => rfl
  | cons c m ih =>
    obtain ⟨x, v⟩ := c
    rw [Memory.wfFrom_cons] at h
    have : x < 254 := h.2.1
    rw [Memory.read_cons, if_neg (by omega), ih h.2.2.2]

/-! ### The byte list of the first addresses -/

@[simp] theorem Memory.bytes_length (m : Memory) (n : Nat) : (m.bytes n).length = n := by simp [Memory.bytes]

@[simp] theorem Memory.bytes_getElem (m : Memory) (n i : Nat) (h : i < (m.bytes n).length) :
    (m.bytes n)[i] = m.read i := by simp [Memory.bytes]

@[simp] theorem Memory.bytes_zero (m : Memory) : m.bytes 0 = [] := rfl

theorem Memory.bytes_succ (m : Memory) (n : Nat) : m.bytes (n + 1) = m.bytes n ++ [m.read n] := by
  simp [Memory.bytes, List.range_succ]

/-- The byte list is decided by the reads below its length. -/
theorem Memory.bytes_eq {m : Memory} {n : Nat} {l : List Byte} (hl : l.length = n)
    (h : ∀ i, (hi : i < l.length) → m.read i = l[i]) : m.bytes n = l := by
  apply List.ext_getElem (by simp [hl])
  intro i h1 h2
  rw [Memory.bytes_getElem]; exact h i h2

end Sys2Proof.Machine
end

