-- ==== Sys2Proof/Laws/State.lean ====
section
/-! SUPPORT. One lemma for each field and each named update of State, so that no proof unfolds a record update. -/

namespace Sys2Proof.Machine

variable (s : State)

@[simp] theorem State.answer_poly (r : Word) : (s.answer r).poly = s.poly := rfl
@[simp] theorem State.answer_ct (r : Word) : (s.answer r).ct = s.ct := rfl
@[simp] theorem State.answer_txbuf (r : Word) : (s.answer r).txbuf = s.txbuf := rfl
@[simp] theorem State.answer_rxbuf (r : Word) : (s.answer r).rxbuf = s.rxbuf := rfl
@[simp] theorem State.answer_pState (r : Word) : (s.answer r).pState = s.pState := rfl
@[simp] theorem State.answer_pId (r : Word) : (s.answer r).pId = s.pId := rfl
@[simp] theorem State.answer_pOvh (r : Word) : (s.answer r).pOvh = s.pOvh := rfl
@[simp] theorem State.answer_pLen (r : Word) : (s.answer r).pLen = s.pLen := rfl
@[simp] theorem State.answer_pCur (r : Word) : (s.answer r).pCur = s.pCur := rfl
@[simp] theorem State.answer_status (r : Word) : (s.answer r).status = s.status := rfl
@[simp] theorem State.answer_bytesRead (r : Word) : (s.answer r).bytesRead = s.bytesRead := rfl
@[simp] theorem State.answer_ups (r : Word) : (s.answer r).ups = s.ups := rfl
@[simp] theorem State.answer_rxq (r : Word) : (s.answer r).rxq = s.rxq := rfl
@[simp] theorem State.answer_txq (r : Word) : (s.answer r).txq = s.txq := rfl
@[simp] theorem State.answer_inputs (r : Word) : (s.answer r).inputs = s.inputs := rfl
@[simp] theorem State.answer_responses (r : Word) : (s.answer r).responses = s.responses ++ [r] := rfl
@[simp] theorem State.answer_writeResults (r : Word) : (s.answer r).writeResults = s.writeResults := rfl
@[simp] theorem State.answer_draws (r : Word) : (s.answer r).draws = s.draws := rfl

@[simp] theorem State.respond_poly (v t : Byte) : (s.respond v t).poly = s.poly := rfl
@[simp] theorem State.respond_ct (v t : Byte) : (s.respond v t).ct = s.ct := rfl
@[simp] theorem State.respond_txbuf (v t : Byte) : (s.respond v t).txbuf = s.txbuf := rfl
@[simp] theorem State.respond_rxbuf (v t : Byte) : (s.respond v t).rxbuf = s.rxbuf := rfl
@[simp] theorem State.respond_pState (v t : Byte) : (s.respond v t).pState = s.pState := rfl
@[simp] theorem State.respond_pId (v t : Byte) : (s.respond v t).pId = s.pId := rfl
@[simp] theorem State.respond_pOvh (v t : Byte) : (s.respond v t).pOvh = s.pOvh := rfl
@[simp] theorem State.respond_pLen (v t : Byte) : (s.respond v t).pLen = s.pLen := rfl
@[simp] theorem State.respond_pCur (v t : Byte) : (s.respond v t).pCur = s.pCur := rfl
@[simp] theorem State.respond_status (v t : Byte) : (s.respond v t).status = s.status := rfl
@[simp] theorem State.respond_bytesRead (v t : Byte) : (s.respond v t).bytesRead = s.bytesRead := rfl
@[simp] theorem State.respond_ups (v t : Byte) : (s.respond v t).ups = s.ups := rfl
@[simp] theorem State.respond_rxq (v t : Byte) : (s.respond v t).rxq = s.rxq := rfl
@[simp] theorem State.respond_txq (v t : Byte) : (s.respond v t).txq = s.txq := rfl
@[simp] theorem State.respond_inputs (v t : Byte) : (s.respond v t).inputs = s.inputs := rfl
@[simp] theorem State.respond_responses (v t : Byte) : (s.respond v t).responses = s.responses ++ [rspWord false t v] := rfl
@[simp] theorem State.respond_writeResults (v t : Byte) : (s.respond v t).writeResults = s.writeResults := rfl
@[simp] theorem State.respond_draws (v t : Byte) : (s.respond v t).draws = s.draws := rfl

@[simp] theorem State.raiseCerr_poly : (s.raiseCerr).poly = s.poly := rfl
@[simp] theorem State.raiseCerr_ct : (s.raiseCerr).ct = s.ct := rfl
@[simp] theorem State.raiseCerr_txbuf : (s.raiseCerr).txbuf = s.txbuf := rfl
@[simp] theorem State.raiseCerr_rxbuf : (s.raiseCerr).rxbuf = s.rxbuf := rfl
@[simp] theorem State.raiseCerr_pState : (s.raiseCerr).pState = s.pState := rfl
@[simp] theorem State.raiseCerr_pId : (s.raiseCerr).pId = s.pId := rfl
@[simp] theorem State.raiseCerr_pOvh : (s.raiseCerr).pOvh = s.pOvh := rfl
@[simp] theorem State.raiseCerr_pLen : (s.raiseCerr).pLen = s.pLen := rfl
@[simp] theorem State.raiseCerr_pCur : (s.raiseCerr).pCur = s.pCur := rfl
@[simp] theorem State.raiseCerr_status : (s.raiseCerr).status = s.status := rfl
@[simp] theorem State.raiseCerr_bytesRead : (s.raiseCerr).bytesRead = s.bytesRead := rfl
@[simp] theorem State.raiseCerr_ups : (s.raiseCerr).ups = s.ups := rfl
@[simp] theorem State.raiseCerr_rxq : (s.raiseCerr).rxq = s.rxq := rfl
@[simp] theorem State.raiseCerr_txq : (s.raiseCerr).txq = s.txq := rfl
@[simp] theorem State.raiseCerr_inputs : (s.raiseCerr).inputs = s.inputs := rfl
@[simp] theorem State.raiseCerr_responses : (s.raiseCerr).responses = s.responses ++ [rspWord true 0x00 0x00] := rfl
@[simp] theorem State.raiseCerr_writeResults : (s.raiseCerr).writeResults = s.writeResults := rfl
@[simp] theorem State.raiseCerr_draws : (s.raiseCerr).draws = s.draws := rfl

@[simp] theorem State.finishService_poly (t : Status) (br : Byte) : (s.finishService t br).poly = s.poly := rfl
@[simp] theorem State.finishService_ct (t : Status) (br : Byte) : (s.finishService t br).ct = s.ct := rfl
@[simp] theorem State.finishService_txbuf (t : Status) (br : Byte) : (s.finishService t br).txbuf = s.txbuf := rfl
@[simp] theorem State.finishService_rxbuf (t : Status) (br : Byte) : (s.finishService t br).rxbuf = s.rxbuf := rfl
@[simp] theorem State.finishService_pState (t : Status) (br : Byte) : (s.finishService t br).pState = s.pState := rfl
@[simp] theorem State.finishService_pId (t : Status) (br : Byte) : (s.finishService t br).pId = s.pId := rfl
@[simp] theorem State.finishService_pOvh (t : Status) (br : Byte) : (s.finishService t br).pOvh = s.pOvh := rfl
@[simp] theorem State.finishService_pLen (t : Status) (br : Byte) : (s.finishService t br).pLen = s.pLen := rfl
@[simp] theorem State.finishService_pCur (t : Status) (br : Byte) : (s.finishService t br).pCur = s.pCur := rfl
@[simp] theorem State.finishService_status (t : Status) (br : Byte) : (s.finishService t br).status = t := rfl
@[simp] theorem State.finishService_bytesRead (t : Status) (br : Byte) : (s.finishService t br).bytesRead = br := rfl
@[simp] theorem State.finishService_ups (t : Status) (br : Byte) : (s.finishService t br).ups = s.ups := rfl
@[simp] theorem State.finishService_rxq (t : Status) (br : Byte) : (s.finishService t br).rxq = s.rxq := rfl
@[simp] theorem State.finishService_txq (t : Status) (br : Byte) : (s.finishService t br).txq = s.txq := rfl
@[simp] theorem State.finishService_inputs (t : Status) (br : Byte) : (s.finishService t br).inputs = s.inputs := rfl
@[simp] theorem State.finishService_responses (t : Status) (br : Byte) : (s.finishService t br).responses = s.responses ++ [rspWord false t.code br] := rfl
@[simp] theorem State.finishService_writeResults (t : Status) (br : Byte) : (s.finishService t br).writeResults = s.writeResults := rfl
@[simp] theorem State.finishService_draws (t : Status) (br : Byte) : (s.finishService t br).draws = s.draws := rfl

@[simp] theorem State.txPush_poly (l : List Byte) : (s.txPush l).poly = s.poly := rfl
@[simp] theorem State.txPush_ct (l : List Byte) : (s.txPush l).ct = s.ct := rfl
@[simp] theorem State.txPush_txbuf (l : List Byte) : (s.txPush l).txbuf = s.txbuf := rfl
@[simp] theorem State.txPush_rxbuf (l : List Byte) : (s.txPush l).rxbuf = s.rxbuf := rfl
@[simp] theorem State.txPush_pState (l : List Byte) : (s.txPush l).pState = s.pState := rfl
@[simp] theorem State.txPush_pId (l : List Byte) : (s.txPush l).pId = s.pId := rfl
@[simp] theorem State.txPush_pOvh (l : List Byte) : (s.txPush l).pOvh = s.pOvh := rfl
@[simp] theorem State.txPush_pLen (l : List Byte) : (s.txPush l).pLen = s.pLen := rfl
@[simp] theorem State.txPush_pCur (l : List Byte) : (s.txPush l).pCur = s.pCur := rfl
@[simp] theorem State.txPush_status (l : List Byte) : (s.txPush l).status = s.status := rfl
@[simp] theorem State.txPush_bytesRead (l : List Byte) : (s.txPush l).bytesRead = s.bytesRead := rfl
@[simp] theorem State.txPush_ups (l : List Byte) : (s.txPush l).ups = s.ups := rfl
@[simp] theorem State.txPush_rxq (l : List Byte) : (s.txPush l).rxq = s.rxq := rfl
@[simp] theorem State.txPush_txq (l : List Byte) : (s.txPush l).txq = s.txq ++ l := rfl
@[simp] theorem State.txPush_inputs (l : List Byte) : (s.txPush l).inputs = s.inputs := rfl
@[simp] theorem State.txPush_responses (l : List Byte) : (s.txPush l).responses = s.responses := rfl
@[simp] theorem State.txPush_writeResults (l : List Byte) : (s.txPush l).writeResults = s.writeResults := rfl
@[simp] theorem State.txPush_draws (l : List Byte) : (s.txPush l).draws = s.draws := rfl

@[simp] theorem State.linkIn_poly (l : List Byte) : (s.linkIn l).poly = s.poly := rfl
@[simp] theorem State.linkIn_ct (l : List Byte) : (s.linkIn l).ct = s.ct := rfl
@[simp] theorem State.linkIn_txbuf (l : List Byte) : (s.linkIn l).txbuf = s.txbuf := rfl
@[simp] theorem State.linkIn_rxbuf (l : List Byte) : (s.linkIn l).rxbuf = s.rxbuf := rfl
@[simp] theorem State.linkIn_pState (l : List Byte) : (s.linkIn l).pState = s.pState := rfl
@[simp] theorem State.linkIn_pId (l : List Byte) : (s.linkIn l).pId = s.pId := rfl
@[simp] theorem State.linkIn_pOvh (l : List Byte) : (s.linkIn l).pOvh = s.pOvh := rfl
@[simp] theorem State.linkIn_pLen (l : List Byte) : (s.linkIn l).pLen = s.pLen := rfl
@[simp] theorem State.linkIn_pCur (l : List Byte) : (s.linkIn l).pCur = s.pCur := rfl
@[simp] theorem State.linkIn_status (l : List Byte) : (s.linkIn l).status = s.status := rfl
@[simp] theorem State.linkIn_bytesRead (l : List Byte) : (s.linkIn l).bytesRead = s.bytesRead := rfl
@[simp] theorem State.linkIn_ups (l : List Byte) : (s.linkIn l).ups = s.ups := rfl
@[simp] theorem State.linkIn_rxq (l : List Byte) : (s.linkIn l).rxq = s.rxq ++ l := rfl
@[simp] theorem State.linkIn_txq (l : List Byte) : (s.linkIn l).txq = s.txq := rfl
@[simp] theorem State.linkIn_inputs (l : List Byte) : (s.linkIn l).inputs = s.inputs := rfl
@[simp] theorem State.linkIn_responses (l : List Byte) : (s.linkIn l).responses = s.responses := rfl
@[simp] theorem State.linkIn_writeResults (l : List Byte) : (s.linkIn l).writeResults = s.writeResults := rfl
@[simp] theorem State.linkIn_draws (l : List Byte) : (s.linkIn l).draws = s.draws := rfl

@[simp] theorem State.linkOut_poly (n : Nat) : (s.linkOut n).poly = s.poly := rfl
@[simp] theorem State.linkOut_ct (n : Nat) : (s.linkOut n).ct = s.ct := rfl
@[simp] theorem State.linkOut_txbuf (n : Nat) : (s.linkOut n).txbuf = s.txbuf := rfl
@[simp] theorem State.linkOut_rxbuf (n : Nat) : (s.linkOut n).rxbuf = s.rxbuf := rfl
@[simp] theorem State.linkOut_pState (n : Nat) : (s.linkOut n).pState = s.pState := rfl
@[simp] theorem State.linkOut_pId (n : Nat) : (s.linkOut n).pId = s.pId := rfl
@[simp] theorem State.linkOut_pOvh (n : Nat) : (s.linkOut n).pOvh = s.pOvh := rfl
@[simp] theorem State.linkOut_pLen (n : Nat) : (s.linkOut n).pLen = s.pLen := rfl
@[simp] theorem State.linkOut_pCur (n : Nat) : (s.linkOut n).pCur = s.pCur := rfl
@[simp] theorem State.linkOut_status (n : Nat) : (s.linkOut n).status = s.status := rfl
@[simp] theorem State.linkOut_bytesRead (n : Nat) : (s.linkOut n).bytesRead = s.bytesRead := rfl
@[simp] theorem State.linkOut_ups (n : Nat) : (s.linkOut n).ups = s.ups := rfl
@[simp] theorem State.linkOut_rxq (n : Nat) : (s.linkOut n).rxq = s.rxq := rfl
@[simp] theorem State.linkOut_txq (n : Nat) : (s.linkOut n).txq = s.txq.drop n := rfl
@[simp] theorem State.linkOut_inputs (n : Nat) : (s.linkOut n).inputs = s.inputs := rfl
@[simp] theorem State.linkOut_responses (n : Nat) : (s.linkOut n).responses = s.responses := rfl
@[simp] theorem State.linkOut_writeResults (n : Nat) : (s.linkOut n).writeResults = s.writeResults := rfl
@[simp] theorem State.linkOut_draws (n : Nat) : (s.linkOut n).draws = s.draws := rfl

@[simp] theorem State.issueFirst_poly (w : Word) : (s.issueFirst w).poly = s.poly := rfl
@[simp] theorem State.issueFirst_ct (w : Word) : (s.issueFirst w).ct = s.ct := rfl
@[simp] theorem State.issueFirst_txbuf (w : Word) : (s.issueFirst w).txbuf = s.txbuf := rfl
@[simp] theorem State.issueFirst_rxbuf (w : Word) : (s.issueFirst w).rxbuf = s.rxbuf := rfl
@[simp] theorem State.issueFirst_pState (w : Word) : (s.issueFirst w).pState = s.pState := rfl
@[simp] theorem State.issueFirst_pId (w : Word) : (s.issueFirst w).pId = s.pId := rfl
@[simp] theorem State.issueFirst_pOvh (w : Word) : (s.issueFirst w).pOvh = s.pOvh := rfl
@[simp] theorem State.issueFirst_pLen (w : Word) : (s.issueFirst w).pLen = s.pLen := rfl
@[simp] theorem State.issueFirst_pCur (w : Word) : (s.issueFirst w).pCur = s.pCur := rfl
@[simp] theorem State.issueFirst_status (w : Word) : (s.issueFirst w).status = s.status := rfl
@[simp] theorem State.issueFirst_bytesRead (w : Word) : (s.issueFirst w).bytesRead = s.bytesRead := rfl
@[simp] theorem State.issueFirst_ups (w : Word) : (s.issueFirst w).ups = s.ups := rfl
@[simp] theorem State.issueFirst_rxq (w : Word) : (s.issueFirst w).rxq = s.rxq := rfl
@[simp] theorem State.issueFirst_txq (w : Word) : (s.issueFirst w).txq = s.txq := rfl
@[simp] theorem State.issueFirst_inputs (w : Word) : (s.issueFirst w).inputs = .command w :: s.inputs := rfl
@[simp] theorem State.issueFirst_responses (w : Word) : (s.issueFirst w).responses = s.responses := rfl
@[simp] theorem State.issueFirst_writeResults (w : Word) : (s.issueFirst w).writeResults = s.writeResults := rfl
@[simp] theorem State.issueFirst_draws (w : Word) : (s.issueFirst w).draws = s.draws := rfl

@[simp] theorem State.applyReset_poly : (s.applyReset).poly = s.poly := rfl
@[simp] theorem State.applyReset_ct : (s.applyReset).ct = buildTable s.poly := rfl
@[simp] theorem State.applyReset_txbuf : (s.applyReset).txbuf = s.txbuf := rfl
@[simp] theorem State.applyReset_rxbuf : (s.applyReset).rxbuf = s.rxbuf := rfl
@[simp] theorem State.applyReset_pState : (s.applyReset).pState = .findStart := rfl
@[simp] theorem State.applyReset_pId : (s.applyReset).pId = 0 := rfl
@[simp] theorem State.applyReset_pOvh : (s.applyReset).pOvh = 0 := rfl
@[simp] theorem State.applyReset_pLen : (s.applyReset).pLen = 0 := rfl
@[simp] theorem State.applyReset_pCur : (s.applyReset).pCur = 0 := rfl
@[simp] theorem State.applyReset_status : (s.applyReset).status = .continuing := rfl
@[simp] theorem State.applyReset_bytesRead : (s.applyReset).bytesRead = 0 := rfl
@[simp] theorem State.applyReset_ups : (s.applyReset).ups = false := rfl
@[simp] theorem State.applyReset_rxq : (s.applyReset).rxq = s.rxq := rfl
@[simp] theorem State.applyReset_txq : (s.applyReset).txq = s.txq := rfl
@[simp] theorem State.applyReset_inputs : (s.applyReset).inputs = s.inputs := rfl
@[simp] theorem State.applyReset_responses : (s.applyReset).responses = s.responses := rfl
@[simp] theorem State.applyReset_writeResults : (s.applyReset).writeResults = s.writeResults := rfl
@[simp] theorem State.applyReset_draws : (s.applyReset).draws = s.draws := rfl

@[simp] theorem State.dropWrite_poly : (s.dropWrite).poly = s.poly := by unfold State.dropWrite; split <;> simp_all
@[simp] theorem State.dropWrite_ct : (s.dropWrite).ct = s.ct := by unfold State.dropWrite; split <;> simp_all
@[simp] theorem State.dropWrite_txbuf : (s.dropWrite).txbuf = s.txbuf := by unfold State.dropWrite; split <;> simp_all
@[simp] theorem State.dropWrite_rxbuf : (s.dropWrite).rxbuf = s.rxbuf := by unfold State.dropWrite; split <;> simp_all
@[simp] theorem State.dropWrite_pState : (s.dropWrite).pState = s.pState := by unfold State.dropWrite; split <;> simp_all
@[simp] theorem State.dropWrite_pId : (s.dropWrite).pId = s.pId := by unfold State.dropWrite; split <;> simp_all
@[simp] theorem State.dropWrite_pOvh : (s.dropWrite).pOvh = s.pOvh := by unfold State.dropWrite; split <;> simp_all
@[simp] theorem State.dropWrite_pLen : (s.dropWrite).pLen = s.pLen := by unfold State.dropWrite; split <;> simp_all
@[simp] theorem State.dropWrite_pCur : (s.dropWrite).pCur = s.pCur := by unfold State.dropWrite; split <;> simp_all
@[simp] theorem State.dropWrite_status : (s.dropWrite).status = s.status := by unfold State.dropWrite; split <;> simp_all
@[simp] theorem State.dropWrite_bytesRead : (s.dropWrite).bytesRead = s.bytesRead := by unfold State.dropWrite; split <;> simp_all
@[simp] theorem State.dropWrite_ups : (s.dropWrite).ups = s.ups := by unfold State.dropWrite; split <;> simp_all
@[simp] theorem State.dropWrite_rxq : (s.dropWrite).rxq = s.rxq := by unfold State.dropWrite; split <;> simp_all
@[simp] theorem State.dropWrite_txq : (s.dropWrite).txq = s.txq := by unfold State.dropWrite; split <;> simp_all
@[simp] theorem State.dropWrite_inputs : (s.dropWrite).inputs = s.inputs := by unfold State.dropWrite; split <;> simp_all
@[simp] theorem State.dropWrite_responses : (s.dropWrite).responses = s.responses := by unfold State.dropWrite; split <;> simp_all
@[simp] theorem State.dropWrite_writeResults : (s.dropWrite).writeResults = s.writeResults.tail := by unfold State.dropWrite; split <;> simp_all

@[simp] theorem State.transportWrite_poly (f : List Byte) : (s.transportWrite f).poly = s.poly := by simp [State.transportWrite]
@[simp] theorem State.transportWrite_ct (f : List Byte) : (s.transportWrite f).ct = s.ct := by simp [State.transportWrite]
@[simp] theorem State.transportWrite_txbuf (f : List Byte) : (s.transportWrite f).txbuf = s.txbuf := by simp [State.transportWrite]
@[simp] theorem State.transportWrite_rxbuf (f : List Byte) : (s.transportWrite f).rxbuf = s.rxbuf := by simp [State.transportWrite]
@[simp] theorem State.transportWrite_pState (f : List Byte) : (s.transportWrite f).pState = s.pState := by simp [State.transportWrite]
@[simp] theorem State.transportWrite_pId (f : List Byte) : (s.transportWrite f).pId = s.pId := by simp [State.transportWrite]
@[simp] theorem State.transportWrite_pOvh (f : List Byte) : (s.transportWrite f).pOvh = s.pOvh := by simp [State.transportWrite]
@[simp] theorem State.transportWrite_pLen (f : List Byte) : (s.transportWrite f).pLen = s.pLen := by simp [State.transportWrite]
@[simp] theorem State.transportWrite_pCur (f : List Byte) : (s.transportWrite f).pCur = s.pCur := by simp [State.transportWrite]
@[simp] theorem State.transportWrite_status (f : List Byte) : (s.transportWrite f).status = s.status := by simp [State.transportWrite]
@[simp] theorem State.transportWrite_bytesRead (f : List Byte) : (s.transportWrite f).bytesRead = s.bytesRead := by simp [State.transportWrite]
@[simp] theorem State.transportWrite_ups (f : List Byte) : (s.transportWrite f).ups = s.ups := by simp [State.transportWrite]
@[simp] theorem State.transportWrite_rxq (f : List Byte) : (s.transportWrite f).rxq = s.rxq := by simp [State.transportWrite]
@[simp] theorem State.transportWrite_txq (f : List Byte) : (s.transportWrite f).txq = s.txq ++ s.nextWrite.reached f := by simp [State.transportWrite]
@[simp] theorem State.transportWrite_inputs (f : List Byte) : (s.transportWrite f).inputs = s.inputs := by simp [State.transportWrite]
@[simp] theorem State.transportWrite_responses (f : List Byte) : (s.transportWrite f).responses = s.responses ++ [rspWord false 0x00 s.nextWrite.val] := by simp [State.transportWrite]
@[simp] theorem State.transportWrite_writeResults (f : List Byte) : (s.transportWrite f).writeResults = s.writeResults.tail := by simp [State.transportWrite]

/-- The counter of free values rises only where no answer is fixed. -/
theorem State.dropWrite_draws :
    s.dropWrite.draws = if s.writeResults = [] then s.draws + 1 else s.draws := by
  unfold State.dropWrite; split <;> simp_all

@[simp] theorem State.transportWrite_draws (f : List Byte) : (s.transportWrite f).draws = s.dropWrite.draws := rfl

/-- A fixed answer comes first. -/
@[simp] theorem State.nextWrite_fixed (d : WriteResult) (ds : List WriteResult) (h : s.writeResults = d :: ds) :
    s.nextWrite = d := by simp [State.nextWrite, h]

/-- SEND's hand-off as one record update. -/
theorem State.transportWrite_eq (f : List Byte) :
    s.transportWrite f = { s with
      txq := s.txq ++ s.nextWrite.reached f
      responses := s.responses ++ [rspWord false 0x00 s.nextWrite.val]
      writeResults := s.dropWrite.writeResults, draws := s.dropWrite.draws } := by
  unfold State.transportWrite State.txPush State.respond State.answer State.dropWrite
  split <;> rfl

/-! ### Launch -/

variable (p : Launch)

@[simp] theorem State.launch_poly : (State.launch p).poly = p.poly := rfl
@[simp] theorem State.launch_ct : (State.launch p).ct = buildTable p.poly := rfl
@[simp] theorem State.launch_txbuf : (State.launch p).txbuf = p.initTx := rfl
@[simp] theorem State.launch_rxbuf : (State.launch p).rxbuf = p.initRx := rfl
@[simp] theorem State.launch_pState : (State.launch p).pState = .findStart := rfl
@[simp] theorem State.launch_pId : (State.launch p).pId = 0 := rfl
@[simp] theorem State.launch_pOvh : (State.launch p).pOvh = 0 := rfl
@[simp] theorem State.launch_pLen : (State.launch p).pLen = 0 := rfl
@[simp] theorem State.launch_pCur : (State.launch p).pCur = 0 := rfl
@[simp] theorem State.launch_status : (State.launch p).status = .continuing := rfl
@[simp] theorem State.launch_bytesRead : (State.launch p).bytesRead = 0 := rfl
@[simp] theorem State.launch_ups : (State.launch p).ups = false := rfl
@[simp] theorem State.launch_rxq : (State.launch p).rxq = p.initRxq := rfl
@[simp] theorem State.launch_txq : (State.launch p).txq = [] := rfl
@[simp] theorem State.launch_inputs : (State.launch p).inputs = [] := rfl
@[simp] theorem State.launch_responses : (State.launch p).responses = [] := rfl
@[simp] theorem State.launch_writeResults : (State.launch p).writeResults = [] := rfl
@[simp] theorem State.launch_draws : (State.launch p).draws = 0 := rfl

end Sys2Proof.Machine
end

