-- ==== Sys2Proof/Laws/Ops.lean ====
section
/-! SUPPORT. One lemma for each shared operation: the response word, raising CERR, the operand forms, a word on the
command port. -/

namespace Sys2Proof.Machine

/-! ### The response word (30_encoding.md R46) -/

theorem rspWord_toNat (c : Bool) (sts val : Byte) :
    (rspWord c sts val).toNat = (c.toNat * 256 + sts.toNat) * 256 + val.toNat := by
  have append_byte : ∀ {n : Nat} (x : BitVec n) (y : Byte), (x ++ y).toNat = x.toNat * 256 + y.toNat := by
    intro n x y
    rw [BitVec.toNat_append, ← Nat.shiftLeft_add_eq_or_of_lt y.isLt, Nat.shiftLeft_eq]
  show (0#15 ++ BitVec.ofBool c ++ sts ++ val).toNat = _
  rw [append_byte, append_byte]
  cases c <;> rfl

/-- A response with a result byte only. -/
@[simp] theorem rspWord_val (v : Byte) : rspWord false 0#8 v = BitVec.setWidth 32 v := by
  apply BitVec.eq_of_toNat_eq
  rw [rspWord_toNat, BitVec.toNat_setWidth]
  simp only [BitVec.toNat_ofNat, Bool.toNat_false]
  omega

/-- The response of CERR (60_exceptions.md R93). -/
@[simp] theorem rspWord_cerr : rspWord true 0#8 0#8 = 0x00010000#32 := by decide

/-- The response of SERVICE: VAL below STS, no CERR. -/
theorem rspWord_service (sts val : Byte) :
    rspWord false sts val = (BitVec.setWidth 32 sts <<< 8) ||| BitVec.setWidth 32 val := by
  apply BitVec.eq_of_toNat_eq
  rw [rspWord_toNat, BitVec.toNat_or, BitVec.toNat_shiftLeft, BitVec.toNat_setWidth, BitVec.toNat_setWidth,
    Nat.mod_eq_of_lt (a := sts.toNat) (by omega), Nat.mod_eq_of_lt (a := val.toNat) (by omega), Nat.shiftLeft_eq,
    Nat.mod_eq_of_lt (by omega), ← Nat.shiftLeft_eq, ← Nat.shiftLeft_add_eq_or_of_lt val.isLt, Nat.shiftLeft_eq]
  simp

/-- Bits 31:17 of a response are 0. -/
theorem rspWord_top (c : Bool) (sts val : Byte) : (rspWord c sts val).extractLsb' 17 15 = 0#15 := by
  apply BitVec.eq_of_toNat_eq
  rw [BitVec.extractLsb'_toNat, rspWord_toNat, Nat.shiftRight_eq_div_pow]
  have := sts.isLt
  have := val.isLt
  cases c <;> simp <;> omega

/-- STS of a response. -/
theorem rspWord_sts (c : Bool) (sts val : Byte) : (rspWord c sts val).extractLsb' 8 8 = sts := by
  apply BitVec.eq_of_toNat_eq
  rw [BitVec.extractLsb'_toNat, rspWord_toNat, Nat.shiftRight_eq_div_pow]
  have := sts.isLt
  have := val.isLt
  cases c <;> simp <;> omega

/-- VAL of a response. -/
theorem rspWord_valField (c : Bool) (sts val : Byte) : (rspWord c sts val).extractLsb' 0 8 = val := by
  apply BitVec.eq_of_toNat_eq
  rw [BitVec.extractLsb'_toNat, rspWord_toNat, Nat.shiftRight_eq_div_pow]
  have := val.isLt
  omega

/-- CERR of a response. -/
theorem rspWord_cerrBit (c : Bool) (sts val : Byte) : (rspWord c sts val).getLsbD 16 = c := by
  rw [BitVec.getLsbD, rspWord_toNat, Nat.testBit_eq_decide_div_mod_eq]
  have := sts.isLt
  have := val.isLt
  cases c <;> simp <;> omega

/-! ### Ending a command -/

/-- `respond(v, 0)` as one record update. -/
theorem State.respond_eq (s : State) (v : Byte) :
    s.respond v 0#8 = { s with responses := s.responses ++ [BitVec.setWidth 32 v] } := by
  rw [State.respond, State.answer, rspWord_val]

/-- `raise CERR` as one record update (60_exceptions.md R93). -/
theorem State.raiseCerr_eq (s : State) :
    s.raiseCerr = { s with responses := s.responses ++ [0x00010000#32] } := by
  rw [State.raiseCerr, State.answer]; simp

/-! ### The operand forms (20_memory.md R29) -/

theorem bufAddr_of_le {a : Byte} (h : a.toNat ≤ 253) : bufAddr a = some a.toNat :=
  if_pos (show a.toNat < 254 by omega)

theorem bufAddr_of_gt {a : Byte} (h : 253 < a.toNat) : bufAddr a = none :=
  if_neg (show ¬ a.toNat < 254 by omega)

theorem bufLen_of_le {n : Byte} (h : n.toNat ≤ 254) : bufLen n = some n.toNat :=
  if_pos (show n.toNat ≤ 254 from h)

theorem bufLen_of_gt {n : Byte} (h : 254 < n.toNat) : bufLen n = none :=
  if_neg (show ¬ n.toNat ≤ 254 by omega)

theorem selectReg_of_gt {sel : Byte} (h : 8 < sel.toNat) : selectReg sel = none := by
  unfold selectReg; split <;> first | omega | rfl

theorem clampLen_eq (len : Byte) : clampLen len = min len.toNat 254 := rfl

/-! ### A word on the command port -/

/-- A word that decodes runs its command. -/
theorem runWord_ok {w : Word} {i : Instr} (h : decode w = .ok i) (s : State) : runWord w s = exec i s := by
  simp [runWord, h]

/-- A word that does not decode raises CERR. -/
theorem runWord_error {w : Word} {e : DecodeError} (h : decode w = .error e) (s : State) :
    runWord w s = .next { s with responses := s.responses ++ [0x00010000#32] } := by
  simp [runWord, h, State.raiseCerr_eq]

/-! ### The step, by its oldest input -/

theorem step_idle {s : State} (h : s.inputs = []) : step s = .next s := by simp [step, h]

theorem step_command {s : State} {w : Word} {rest : List Event} (h : s.inputs = .command w :: rest) :
    step s = runWord w { s with inputs := rest } := by simp [step, h, takeEvent]

theorem step_linkIn {s : State} {l : List Byte} {rest : List Event} (h : s.inputs = .linkIn l :: rest) :
    step s = .next ({ s with inputs := rest }.linkIn l) := by simp [step, h, takeEvent]

theorem step_linkOut {s : State} {n : Nat} {rest : List Event} (h : s.inputs = .linkOut n :: rest) :
    step s = .next ({ s with inputs := rest }.linkOut n) := by simp [step, h, takeEvent]

theorem step_reset {s : State} {rest : List Event} (h : s.inputs = .reset :: rest) :
    step s = .next ({ s with inputs := rest }.applyReset) := by simp [step, h, takeEvent]

end Sys2Proof.Machine
end

