-- ==== Sys2Proof/Laws/Stuffing.lean ====
section
/-! SUPPORT. The scans for a sentinel, the backward scan of Stuff byte by byte, and the walk of Destuff. -/

namespace Sys2Proof.Machine

/-! ### The scans -/

theorem firstSentinel_eq_some {m : Memory} {i count j : Nat} :
    firstSentinel m i count = some j ↔
      (i ≤ j ∧ j < i + count) ∧ m.read j = Config.START ∧ ∀ x, i ≤ x → x < j → m.read x ≠ Config.START := by
  induction count generalizing i with
  | zero => simp [firstSentinel]
  | succ n ih =>
    unfold firstSentinel
    split
    · rename_i h
      simp only [Option.some.injEq]
      constructor
      · rintro rfl; exact ⟨⟨by omega, by omega⟩, h, fun x _ _ => by omega⟩
      · rintro ⟨⟨h1, _⟩, _, h3⟩
        by_contra hne
        exact h3 i (by omega) (by omega) h
    · rename_i h
      rw [ih]
      constructor
      · rintro ⟨⟨h1, h2⟩, h3, h4⟩
        exact ⟨⟨by omega, by omega⟩, h3, fun x hx hxj => if hxi : x = i then hxi ▸ h else h4 x (by omega) hxj⟩
      · rintro ⟨⟨h1, h2⟩, h3, h4⟩
        have : i ≠ j := fun e => h (e ▸ h3)
        exact ⟨⟨by omega, by omega⟩, h3, fun x hx hxj => h4 x (by omega) hxj⟩

theorem firstSentinel_eq_none {m : Memory} {i count : Nat} :
    firstSentinel m i count = none ↔ ∀ x, i ≤ x → x < i + count → m.read x ≠ Config.START := by
  induction count generalizing i with
  | zero => exact ⟨fun _ x h1 h2 => by omega, fun _ => rfl⟩
  | succ n ih =>
    unfold firstSentinel
    split
    · rename_i h
      simp only [reduceCtorEq, false_iff]
      exact fun hx => hx i (by omega) (by omega) h
    · rename_i h
      rw [ih]
      exact ⟨fun hx x h1 h2 => if hxi : x = i then hxi ▸ h else hx x (by omega) (by omega),
        fun hx x h1 h2 => hx x (by omega) (by omega)⟩

theorem lastSentinelBelow_eq_some {m : Memory} {n j : Nat} :
    lastSentinelBelow m n = some j ↔
      j < n ∧ m.read j = Config.START ∧ ∀ x, j < x → x < n → m.read x ≠ Config.START := by
  induction n with
  | zero => simp [lastSentinelBelow]
  | succ i ih =>
    unfold lastSentinelBelow
    split
    · rename_i h
      simp only [Option.some.injEq]
      constructor
      · rintro rfl; exact ⟨by omega, h, fun x _ _ => by omega⟩
      · rintro ⟨h1, _, h3⟩
        by_contra hne
        exact h3 i (by omega) (by omega) h
    · rename_i h
      rw [ih]
      constructor
      · rintro ⟨h1, h2, h3⟩
        exact ⟨by omega, h2, fun x hx hxj => if hxi : x = i then hxi ▸ h else h3 x hx (by omega)⟩
      · rintro ⟨h1, h2, h3⟩
        have : i ≠ j := fun e => h (e ▸ h2)
        exact ⟨by omega, h2, fun x hx hxj => h3 x hx (by omega)⟩

theorem lastSentinelBelow_eq_none {m : Memory} {n : Nat} :
    lastSentinelBelow m n = none ↔ ∀ x, x < n → m.read x ≠ Config.START := by
  induction n with
  | zero => simp [lastSentinelBelow]
  | succ i ih =>
    unfold lastSentinelBelow
    split
    · rename_i h
      simp only [reduceCtorEq, false_iff]
      exact fun hx => hx i (by omega) h
    · rename_i h
      rw [ih]
      exact ⟨fun hx x h1 => if hxi : x = i then hxi ▸ h else hx x (by omega), fun hx x h1 => hx x (by omega)⟩

/-! ### Stuff, byte by byte -/

/-- What the backward scan leaves at an index: a sentinel below n gets the distance to the next sentinel below n, the
highest one the distance to ref, and nothing else changes. -/
theorem stuffBelow_read (n ref x : Nat) (m : Memory) :
    (stuffBelow n ref m).read x =
      if x < n ∧ m.read x = Config.START then
        BitVec.ofNat 8 ((firstSentinel m (x + 1) (n - (x + 1))).getD ref - x)
      else m.read x := by
  induction n generalizing ref m with
  | zero => simp [stuffBelow]
  | succ i ih =>
    unfold stuffBelow
    split
    · rename_i h
      rw [ih]
      have hother : ∀ y, y < i → (m.write i (BitVec.ofNat 8 (ref - i))).read y = m.read y :=
        fun y hy => Memory.read_write_other _ _ _ _ (by omega)
      by_cases hx : x < i
      · rw [hother x hx]
        by_cases hs : m.read x = Config.START
        · rw [if_pos ⟨hx, hs⟩, if_pos ⟨by omega, hs⟩]
          cases hf : firstSentinel m (x + 1) (i + 1 - (x + 1)) with
          | none =>
            exact absurd h (firstSentinel_eq_none.1 hf i (by omega) (by omega))
          | some j =>
            obtain ⟨⟨h1, h2⟩, h3, h4⟩ := firstSentinel_eq_some.1 hf
            by_cases hj : j = i
            · subst hj
              rw [firstSentinel_eq_none.2 (fun y hy hy' => by rw [hother y (by omega)]; exact h4 y hy (by omega))]
              rfl
            · rw [firstSentinel_eq_some.2 ⟨⟨h1, by omega⟩, by rw [hother j (by omega)]; exact h3,
                fun y hy hy' => by rw [hother y (by omega)]; exact h4 y hy hy'⟩]
              rfl
        · rw [if_neg (fun c => hs c.2), if_neg (fun c => hs c.2)]
      · rw [if_neg (fun c => hx c.1), Memory.read_write]
        by_cases hxi : x = i
        · subst hxi
          rw [if_pos rfl, if_pos ⟨by omega, h⟩]
          simp [firstSentinel]
        · rw [if_neg hxi, if_neg (fun c => by omega)]
    · rename_i h
      rw [ih]
      by_cases hx : x < i
      · by_cases hs : m.read x = Config.START
        · rw [if_pos ⟨hx, hs⟩, if_pos ⟨by omega, hs⟩]
          cases hf : firstSentinel m (x + 1) (i + 1 - (x + 1)) with
          | none =>
            rw [firstSentinel_eq_none.2 (fun y hy hy' => firstSentinel_eq_none.1 hf y hy (by omega))]
          | some j =>
            obtain ⟨⟨h1, h2⟩, h3, h4⟩ := firstSentinel_eq_some.1 hf
            have hj : j ≠ i := fun e => h (e ▸ h3)
            rw [firstSentinel_eq_some.2 ⟨⟨h1, by omega⟩, h3, h4⟩]
        · rw [if_neg (fun c => hs c.2), if_neg (fun c => hs c.2)]
      · by_cases hxi : x = i
        · subst hxi
          rw [if_neg (fun c => h c.2), if_neg (fun c => h c.2)]
        · rw [if_neg (fun c => hx c.1), if_neg (fun c => by omega)]

/-- What Stuff leaves at an index (42_stuffing.md R63), through the next sentinel above it. -/
theorem stuff_read (m : Memory) (n x : Nat) (hn : n ≤ 254) :
    (stuff m n).read x =
      if x < n ∧ m.read x = Config.START then
        match firstSentinel m (x + 1) (n - (x + 1)) with
        | some j => BitVec.ofNat 8 (j - x)
        | none => 0x00
      else m.read x := by
  unfold stuff findLastSentinel
  rw [if_neg (show ¬ n > Config.MAX_PAYLOAD from Nat.not_lt.2 hn)]
  cases hl : lastSentinelBelow m n with
  | none =>
    rw [if_neg (fun c => lastSentinelBelow_eq_none.1 hl x c.1 c.2)]
  | some ref =>
    obtain ⟨h1, h2, h3⟩ := lastSentinelBelow_eq_some.1 hl
    simp only
    rw [stuffBelow_read]
    split
    · rename_i h
      cases hf : firstSentinel m (x + 1) (n - (x + 1)) with
      | some j => rfl
      | none =>
        have hx : x = ref := by
          rcases Nat.lt_trichotomy x ref with hlt | heq | hgt
          · exact absurd h2 (firstSentinel_eq_none.1 hf ref (by omega) (by omega))
          · exact heq
          · exact absurd h.2 (h3 x hgt h.1)
        subst hx
        simp
    · rfl

/-- Stuff writes inside the payload only, so it keeps the canonical form. -/
theorem stuffBelow_wf {m : Memory} (n ref : Nat) (hn : n ≤ 254) (h : m.wf = true) :
    (stuffBelow n ref m).wf = true := by
  induction n generalizing ref m with
  | zero => exact h
  | succ i ih =>
    unfold stuffBelow
    split
    · exact ih _ (by omega) (Memory.wf_write _ _ h (by omega))
    · exact ih _ (by omega) h

theorem stuff_wf {m : Memory} (n : Nat) (hn : n ≤ 254) (h : m.wf = true) : (stuff m n).wf = true := by
  unfold stuff
  split
  · exact h
  · exact stuffBelow_wf _ _ hn h

/-! ### The walk of Destuff -/

theorem destuffWalk_outside {fuel i : Nat} {m : Memory} (h : 254 ≤ i) : destuffWalk fuel i m = m := by
  cases fuel with
  | zero => rfl
  | succ f => exact if_pos h

/-- The walk does not depend on its fuel once there is one unit for each index left. -/
theorem destuffWalk_fuel {f g i : Nat} {m : Memory} (hf : 254 ≤ f + i) (hg : 254 ≤ g + i) :
    destuffWalk f i m = destuffWalk g i m := by
  induction f generalizing g i m with
  | zero => rw [destuffWalk_outside (by omega), destuffWalk_outside (by omega)]
  | succ f ih =>
    cases g with
    | zero => rw [destuffWalk_outside (by omega), destuffWalk_outside (by omega)]
    | succ g =>
      unfold destuffWalk
      split
      · rfl
      · split
        · rfl
        · rename_i hz
          have : (m.read i).toNat ≠ 0 := fun e => hz (BitVec.eq_of_toNat_eq (by simpa using e))
          exact ih (by omega) (by omega)

/-- One entry of the walk with all the fuel it can use. -/
theorem destuffWalk_step {i : Nat} (m : Memory) (h : i < 254) :
    destuffWalk 254 i m =
      if m.read i = 0x00 then m.write i Config.START
      else destuffWalk 254 (i + (m.read i).toNat) (m.write i Config.START) := by
  rw [destuffWalk, if_neg (show ¬ i ≥ Config.RX_CAP from Nat.not_le.2 h)]
  split
  · rfl
  · rename_i hz
    have : (m.read i).toNat ≠ 0 := fun e => hz (BitVec.eq_of_toNat_eq (by simpa using e))
    exact destuffWalk_fuel (by omega) (by omega)

/-- Destuff is the walk with all the fuel it can use. -/
theorem destuff_eq_walk (m : Memory) (start : Byte) : destuff m start = destuffWalk 254 start.toNat m := by
  unfold destuff
  split
  · rename_i h
    have : start.toNat > 254 := h
    rw [destuffWalk_outside (by omega)]
  · rfl

theorem destuffWalk_wf {m : Memory} (fuel i : Nat) (h : m.wf = true) : (destuffWalk fuel i m).wf = true := by
  induction fuel generalizing i m with
  | zero => exact h
  | succ f ih =>
    unfold destuffWalk
    split
    · exact h
    · rename_i hi
      have : i < 254 := by simpa [Config.RX_CAP] using hi
      split
      · exact Memory.wf_write _ _ h this
      · exact ih _ (Memory.wf_write _ _ h this)

/-- Destuff keeps the canonical form. -/
theorem destuff_wf {m : Memory} (start : Byte) (h : m.wf = true) : (destuff m start).wf = true := by
  rw [destuff_eq_walk]; exact destuffWalk_wf _ _ h

end Sys2Proof.Machine
end

