-- ==== Sys2Proof/Laws/Receive.lean ====
section
/-! SUPPORT. RxStep and SERVICE: what one byte can do, that RxStep reads and writes the parser alone, and SERVICE as a
run of RxStep. -/

namespace Sys2Proof.Machine

/-! ### One byte -/

/-- What RxStep can do: go on with new parser registers and RXBUF, end in FindStart with one of four outcomes, abort
from code 7, or form an index outside RXBUF. -/
theorem rxStep_cases (s : State) (b : Byte) :
    (∃ m ps i o l c, rxStep s b =
      .more { s with rxbuf := m, pState := ps, pId := i, pOvh := o, pLen := l, pCur := c } ∧ ps ≠ .undefined) ∨
    (rxStep s b = .term { s with pState := .findStart } .payloadLengthError 0x00) ∨
    (rxStep s b = .term { s with pState := .findStart } .checksumError 0x00) ∨
    (rxStep s b = .term { s with pState := .findStart } .stopByteError 0x00) ∨
    (rxStep s b = .term { s with pState := .findStart, rxbuf := destuff s.rxbuf s.pOvh } .newData s.pLen ∧
      s.pState = .findStop) ∨
    (s.pState = .undefined ∧ rxStep s b = .abort { s with ups := true, pState := .findStart }) ∨
    (rxStep s b = .outside ∧ ((s.pState = .findPayload ∧ 254 ≤ s.pCur.toNat) ∨
      (s.pState = .findChecksum ∧ 254 < s.pLen.toNat))) := by
  unfold rxStep
  split <;> rename_i hp
  · left; unfold rxFindStart; split
    · exact ⟨s.rxbuf, .findId, s.pId, s.pOvh, s.pLen, s.pCur, rfl, by decide⟩
    · exact ⟨s.rxbuf, s.pState, s.pId, s.pOvh, s.pLen, s.pCur, rfl, by simp [hp]⟩
  · exact .inl ⟨s.rxbuf, .findOverhead, b, s.pOvh, s.pLen, s.pCur, rfl, by decide⟩
  · exact .inl ⟨s.rxbuf, .findLength, s.pId, b, s.pLen, s.pCur, rfl, by decide⟩
  · unfold rxFindLength; split
    · exact .inl ⟨s.rxbuf, .findPayload, s.pId, s.pOvh, b, 0, rfl, by decide⟩
    · exact .inr (.inl rfl)
  · unfold rxFindPayload; split
    · exact .inl ⟨_, _, s.pId, s.pOvh, s.pLen, _, rfl, by split <;> decide⟩
    · rename_i h
      exact .inr (.inr (.inr (.inr (.inr (.inr ⟨rfl, .inl ⟨hp, Nat.not_lt.1 h⟩⟩)))))
  · unfold rxFindChecksum; split
    · split
      · exact .inl ⟨s.rxbuf, .findStop, s.pId, s.pOvh, s.pLen, s.pCur, rfl, by decide⟩
      · exact .inr (.inr (.inl rfl))
    · rename_i h
      exact .inr (.inr (.inr (.inr (.inr (.inr ⟨rfl, .inr ⟨hp, Nat.not_le.1 h⟩⟩)))))
  · unfold rxFindStop; split
    · exact .inr (.inr (.inr (.inr (.inl ⟨rfl, hp⟩))))
    · exact .inr (.inr (.inr (.inl rfl)))
  · exact .inr (.inr (.inr (.inr (.inr (.inl ⟨hp, rfl⟩)))))

/-- The parser, CT and FAULT of s with everything else of e. -/
def State.over (s e : State) : State :=
  { e with
    ct := s.ct, rxbuf := s.rxbuf, pState := s.pState, pId := s.pId, pOvh := s.pOvh, pLen := s.pLen
    pCur := s.pCur, ups := s.ups }

/-- The result with everything but the parser, CT and FAULT of e. -/
def RxResult.over : RxResult → State → RxResult
  | .more s, e => .more (s.over e)
  | .term s t br, e => .term (s.over e) t br
  | .abort s, e => .abort (s.over e)
  | .outside, _ => .outside

theorem State.over_self (s : State) : s.over s = s := rfl

/-- RxStep reads and writes the parser alone, whatever the rest of the state holds. -/
theorem rxStep_over (s e : State) (b : Byte) : rxStep (s.over e) b = (rxStep s b).over e := by
  unfold rxStep
  rw [show (s.over e).pState = s.pState from rfl]
  split
  · unfold rxFindStart; split <;> rfl
  · rfl
  · rfl
  · unfold rxFindLength; split <;> rfl
  · by_cases h : s.pCur.toNat < Config.RX_CAP <;> by_cases hl : s.pCur + 1#8 = s.pLen <;>
      simp [rxFindPayload, State.over, RxResult.over, h, hl]
  · by_cases h : s.pLen.toNat ≤ Config.RX_CAP <;>
      by_cases hb : b = checksumOf s.ct (s.rxbuf.bytes s.pLen.toNat) <;>
      simp [rxFindChecksum, State.over, RxResult.over, h, hb]
  · unfold rxFindStop; split <;> rfl
  · rfl

/-! ### A run of bytes -/

/-- RxStep over a byte list, up to the first result that is not `more`; RXQ holds what is left of the list. -/
def rxRun : List Byte → State → RxResult
  | [], s => .more s
  | b :: rest, s =>
    match rxStep { s with rxq := rest } b with
    | .more s' => rxRun rest s'
    | r => r

/-- How SERVICE ends for a run's result. -/
def RxResult.finish : RxResult → Result
  | .more s => .next (s.finishService .continuing 0x00)
  | .term s t br => .next (s.finishService t br)
  | .abort s => .next (s.finishService .continuing 0x00)
  | .outside => .fault .rxIndexOutside

theorem serviceLoop_eq_run (q : List Byte) (s : State) : serviceLoop q s = (rxRun q s).finish := by
  induction q generalizing s with
  | nil => rfl
  | cons b rest ih =>
    unfold serviceLoop rxRun
    cases rxStep { s with rxq := rest } b with
    | more s' => exact ih s'
    | term s' t br => rfl
    | abort s' => rfl
    | outside => rfl

/-- SERVICE on a nonempty RXQ is the run over it. -/
theorem execService_eq_run {s : State} (h : s.rxq ≠ []) : execService s = (rxRun s.rxq s).finish := by
  unfold execService
  split
  · rename_i hq; exact absurd hq h
  · rename_i b rest hq
    rw [serviceLoop_eq_run, hq]

/-- SERVICE on an empty RXQ. -/
theorem execService_empty {s : State} (h : s.rxq = []) : execService s = .next (s.finishService .noData 0x00) := by
  unfold execService; rw [h]

theorem rxRun_cons_more {b : Byte} {rest : List Byte} {s s' : State}
    (h : rxStep { s with rxq := rest } b = .more s') : rxRun (b :: rest) s = rxRun rest s' := by
  simp only [rxRun, h]

theorem rxRun_cons_of_ne {b : Byte} {rest : List Byte} {s : State}
    (h : ∀ s', rxStep { s with rxq := rest } b ≠ .more s') :
    rxRun (b :: rest) s = rxStep { s with rxq := rest } b := by
  unfold rxRun
  cases hr : rxStep { s with rxq := rest } b with
  | more s' => exact absurd hr (h s')
  | term s' t br => rfl
  | abort s' => rfl
  | outside => rfl

/-- The run over a nonempty list does not read the RXQ of the state it starts from. -/
theorem rxRun_rxq (b : Byte) (rest q : List Byte) (s : State) :
    rxRun (b :: rest) { s with rxq := q } = rxRun (b :: rest) s := rfl

/-- A result with more bytes at the tail of RXQ. -/
def RxResult.appendRxq : RxResult → List Byte → RxResult
  | .more s, q => .more { s with rxq := s.rxq ++ q }
  | .term s t br, q => .term { s with rxq := s.rxq ++ q } t br
  | .abort s, q => .abort { s with rxq := s.rxq ++ q }
  | .outside, _ => .outside

/-- RxStep with more bytes at the tail of RXQ. -/
theorem rxStep_appendRxq (s : State) (p q : List Byte) (b : Byte) :
    rxStep { s with rxq := p ++ q } b = (rxStep { s with rxq := p } b).appendRxq q := by
  have h1 : ({ s with rxq := p ++ q } : State) = s.over { s with rxq := p ++ q } := rfl
  have h2 : ({ s with rxq := p } : State) = s.over { s with rxq := p } := rfl
  rw [h1, h2, rxStep_over, rxStep_over]
  cases rxStep s b <;> rfl

/-- A run over two lists is the run over the first and, if that goes on, the run over the second. -/
theorem rxRun_append (p : List Byte) (c : Byte) (q : List Byte) (s : State) :
    rxRun (p ++ c :: q) s =
      match rxRun p s with
      | .more s' => rxRun (c :: q) s'
      | r => r.appendRxq (c :: q) := by
  induction p generalizing s with
  | nil => rfl
  | cons b rest ih =>
    simp only [List.cons_append, rxRun, rxStep_appendRxq]
    cases hr : rxStep { s with rxq := rest } b with
    | more s' =>
      simp only [RxResult.appendRxq]
      have hne : rest ++ c :: q ≠ [] := by simp
      obtain ⟨d, l, hd⟩ := List.exists_cons_of_ne_nil hne
      have := ih s'
      rw [hd] at this ⊢
      rw [rxRun_rxq, this]
      cases rxRun rest s' <;> rfl
    | term s' t br => rfl
    | abort s' => rfl
    | outside => rfl

/-- The run reads and writes the parser and RXQ alone. -/
theorem rxRun_over (b : Byte) (q : List Byte) (s e : State) :
    rxRun (b :: q) (s.over e) =
      match rxRun (b :: q) s with
      | .more s' => .more (s'.over { e with rxq := s'.rxq })
      | .term s' t br => .term (s'.over { e with rxq := s'.rxq }) t br
      | .abort s' => .abort (s'.over { e with rxq := s'.rxq })
      | .outside => .outside := by
  induction q generalizing b s e with
  | nil =>
    unfold rxRun
    have h1 : ({ s.over e with rxq := [] } : State) = s.over { e with rxq := [] } := rfl
    have h2 : ({ s with rxq := [] } : State) = s.over { s with rxq := [] } := rfl
    rw [h1, h2, rxStep_over, rxStep_over]
    cases rxStep s b <;> rfl
  | cons c l ih =>
    unfold rxRun
    have h1 : ({ s.over e with rxq := c :: l } : State) = s.over { e with rxq := c :: l } := rfl
    have h2 : ({ s with rxq := c :: l } : State) = s.over { s with rxq := c :: l } := rfl
    rw [h1, h2, rxStep_over, rxStep_over]
    cases rxStep s b with
    | more s' =>
      simp only [RxResult.over]
      rw [ih, ih]
      cases rxRun (c :: l) s' <;> rfl
    | term s' t br => rfl
    | abort s' => rfl
    | outside => rfl

/-- Where a run's result holds a state, it differs from the start in the parser, FAULT and RXQ only, and RXQ is what is
left of the list. -/
theorem rxRun_state (q : List Byte) (s : State) :
    match rxRun q s with
    | .more s' => s' = s'.over { s with rxq := s'.rxq } ∧ s'.ct = s.ct ∧ s'.ups = s.ups ∧ (q ≠ [] → s'.rxq = []) ∧
        (s.pState ≠ .undefined → s'.pState ≠ .undefined)
    | .term s' t br => s' = s'.over { s with rxq := s'.rxq } ∧ s'.ct = s.ct ∧ s'.ups = s.ups ∧
        (∃ used, used ≠ [] ∧ q = used ++ s'.rxq) ∧ s'.pState = .findStart ∧
        t ≠ .continuing ∧ t ≠ .noData ∧ (t = .newData → br = s'.pLen) ∧ (t ≠ .newData → br = 0x00)
    | .abort s' => s' = { s with ups := true, pState := .findStart, rxq := s'.rxq } ∧
        (∃ used, used ≠ [] ∧ q = used ++ s'.rxq) ∧ s.pState = .undefined
    | .outside => True := by
  induction q generalizing s with
  | nil => exact ⟨rfl, rfl, rfl, fun h => absurd rfl h, id⟩
  | cons b rest ih =>
    unfold rxRun
    rcases rxStep_cases { s with rxq := rest } b with
      ⟨m, ps, i, o, l, c, h, hps⟩ | h | h | h | ⟨h, _⟩ | ⟨hu, h⟩ | ⟨h, _⟩ <;> rw [h]
    · simp only
      have hi := ih { s with rxq := rest, rxbuf := m, pState := ps, pId := i, pOvh := o, pLen := l, pCur := c }
      cases hr : rxRun rest { s with rxq := rest, rxbuf := m, pState := ps, pId := i, pOvh := o, pLen := l, pCur := c } with
      | more s' =>
        rw [hr] at hi
        obtain ⟨h1, h2, h3, h4, h5⟩ := hi
        refine ⟨h1, h2, h3, fun _ => ?_, fun _ => h5 hps⟩
        by_cases hrest : rest = []
        · subst hrest
          simp only [rxRun, RxResult.more.injEq] at hr
          rw [← hr]
        · exact h4 hrest
      | term s' t br =>
        rw [hr] at hi
        obtain ⟨h1, h2, h3, ⟨used, hu1, hu2⟩, h4, h5, h6, h7⟩ := hi
        exact ⟨h1, h2, h3, ⟨b :: used, by simp, by rw [hu2]; rfl⟩, h4, h5, h6, h7⟩
      | abort s' =>
        rw [hr] at hi
        exact absurd hi.2.2 hps
      | outside => trivial
    · exact ⟨rfl, rfl, rfl, ⟨[b], by simp, rfl⟩, rfl, by decide, by decide, (fun h => nomatch h), fun _ => rfl⟩
    · exact ⟨rfl, rfl, rfl, ⟨[b], by simp, rfl⟩, rfl, by decide, by decide, (fun h => nomatch h), fun _ => rfl⟩
    · exact ⟨rfl, rfl, rfl, ⟨[b], by simp, rfl⟩, rfl, by decide, by decide, (fun h => nomatch h), fun _ => rfl⟩
    · exact ⟨rfl, rfl, rfl, ⟨[b], by simp, rfl⟩, rfl, by decide, by decide, fun _ => rfl, fun h => absurd rfl h⟩
    · exact ⟨rfl, ⟨[b], by simp, rfl⟩, hu⟩
    · trivial

/-! ### The invariant -/

/-- Setting RXQ keeps the invariant. -/
theorem Inv.setRxq {s : State} (h : Inv s) (q : List Byte) : Inv { s with rxq := q } :=
  ⟨h.table, h.txbuf, h.rxbuf, h.pState, h.ups, h.pLen, h.payload, h.complete, h.pCur, h.bytesRead, h.newData⟩

/-- Back to FindStart. -/
theorem Inv.toFindStart {s : State} (h : Inv s) : Inv { s with pState := .findStart } :=
  { table := h.table, txbuf := h.txbuf, rxbuf := h.rxbuf, pState := by simp, ups := h.ups, pLen := h.pLen
    payload := by simp, complete := by simp, pCur := h.pCur, bytesRead := h.bytesRead, newData := h.newData }

/-- A good destuff. -/
theorem Inv.destuffed {s : State} (h : Inv s) :
    Inv { s with pState := .findStart, rxbuf := destuff s.rxbuf s.pOvh } :=
  { table := h.table, txbuf := h.txbuf, rxbuf := destuff_wf _ h.rxbuf, pState := by simp, ups := h.ups, pLen := h.pLen
    payload := by simp, complete := by simp, pCur := h.pCur, bytesRead := h.bytesRead, newData := h.newData }

/-- The result keeps the invariant: no abort, no index outside RXBUF, and a delivered length from 1 to 254. -/
def RxResult.Keeps : RxResult → Prop
  | .more s => Inv s
  | .term s t br => Inv s ∧ (t = .newData → 1 ≤ br.toNat ∧ br.toNat ≤ 254)
  | .abort _ => False
  | .outside => False

/-- A byte keeps the invariant and never aborts or leaves the buffer; a good STOP gives a length from 1 to 254. -/
theorem Inv.rxStep_keeps {s : State} (h : Inv s) (b : Byte) : (rxStep s b).Keeps := by
  unfold rxStep
  split <;> rename_i hp
  · unfold rxFindStart; split
    · exact { table := h.table, txbuf := h.txbuf, rxbuf := h.rxbuf, pState := by simp, ups := h.ups, pLen := h.pLen
              payload := by simp, complete := by simp, pCur := h.pCur, bytesRead := h.bytesRead, newData := h.newData }
    · exact h
  · exact { table := h.table, txbuf := h.txbuf, rxbuf := h.rxbuf, pState := by simp, ups := h.ups, pLen := h.pLen
            payload := by simp, complete := by simp, pCur := h.pCur, bytesRead := h.bytesRead, newData := h.newData }
  · exact { table := h.table, txbuf := h.txbuf, rxbuf := h.rxbuf, pState := by simp, ups := h.ups, pLen := h.pLen
            payload := by simp, complete := by simp, pCur := h.pCur, bytesRead := h.bytesRead, newData := h.newData }
  · unfold rxFindLength; split
    · rename_i hb
      exact { table := h.table, txbuf := h.txbuf, rxbuf := h.rxbuf, pState := by simp, ups := h.ups, pLen := hb.2
              payload := fun _ => hb.1, complete := by simp, pCur := by simp, bytesRead := h.bytesRead
              newData := h.newData }
    · exact ⟨h.toFindStart, fun e => nomatch e⟩
  · have hlt := h.payload hp
    have hl := h.pLen
    have hc : (s.pCur + 1).toNat = s.pCur.toNat + 1 := by rw [BitVec.toNat_add]; simp; omega
    unfold rxFindPayload
    rw [if_pos (show s.pCur.toNat < Config.RX_CAP from Nat.lt_of_lt_of_le hlt hl)]
    by_cases he : s.pCur + 1#8 = s.pLen
    · exact { table := h.table, txbuf := h.txbuf, rxbuf := Memory.wf_write _ _ h.rxbuf (by omega)
              pState := by simp [he], ups := h.ups, pLen := h.pLen, payload := by simp [he]
              complete := fun _ => ⟨by show 1 ≤ s.pLen.toNat; omega, he⟩, pCur := by show (s.pCur + 1).toNat ≤ 254; omega
              bytesRead := h.bytesRead, newData := h.newData }
    · have hne : (s.pCur + 1).toNat ≠ s.pLen.toNat := fun e => he (BitVec.eq_of_toNat_eq e)
      exact { table := h.table, txbuf := h.txbuf, rxbuf := Memory.wf_write _ _ h.rxbuf (by omega)
              pState := by simp [he], ups := h.ups, pLen := h.pLen
              payload := fun _ => by show (s.pCur + 1).toNat < s.pLen.toNat; omega
              complete := by simp [he], pCur := by show (s.pCur + 1).toNat ≤ 254; omega
              bytesRead := h.bytesRead, newData := h.newData }
  · unfold rxFindChecksum
    rw [if_pos (show s.pLen.toNat ≤ Config.RX_CAP from h.pLen)]
    split
    · exact { table := h.table, txbuf := h.txbuf, rxbuf := h.rxbuf, pState := by simp, ups := h.ups, pLen := h.pLen
              payload := by simp, complete := fun _ => h.complete (.inl hp), pCur := h.pCur
              bytesRead := h.bytesRead, newData := h.newData }
    · exact ⟨h.toFindStart, fun e => nomatch e⟩
  · unfold rxFindStop; split
    · exact ⟨h.destuffed, fun _ => ⟨(h.complete (.inr hp)).1, h.pLen⟩⟩
    · exact ⟨h.toFindStart, fun e => nomatch e⟩
  · exact h.pState hp

/-- A run of bytes keeps the invariant and never aborts or leaves the buffer. -/
theorem Inv.rxRun_keeps {s : State} (h : Inv s) (q : List Byte) : (rxRun q s).Keeps := by
  induction q generalizing s with
  | nil => exact h
  | cons b rest ih =>
    have hb := (h.setRxq rest).rxStep_keeps b
    unfold rxRun
    cases hr : rxStep { s with rxq := rest } b with
    | more s' => rw [hr] at hb; exact ih hb
    | term s' t br => rw [hr] at hb; exact hb
    | abort s' => rw [hr] at hb; exact hb
    | outside => rw [hr] at hb; exact hb

/-! ### A frame, part by part -/

/-- The buffer with a byte list stored from an index on. -/
def storeBytes : Memory → Nat → List Byte → Memory
  | m, _, [] => m
  | m, i, b :: l => storeBytes (m.write i b) (i + 1) l

theorem storeBytes_read (m : Memory) (i : Nat) (l : List Byte) (x : Nat) :
    (storeBytes m i l).read x = if h : i ≤ x ∧ x < i + l.length then l[x - i]'(by omega) else m.read x := by
  induction l generalizing m i with
  | nil => simp [storeBytes]
  | cons b l ih =>
    rw [storeBytes, ih]
    by_cases hx : x = i
    · subst hx; simp
    · by_cases h : i + 1 ≤ x ∧ x < i + 1 + l.length
      · rw [dif_pos h, dif_pos ⟨by omega, by simp only [List.length_cons]; omega⟩]
        have : x - i = (x - (i + 1)) + 1 := by omega
        simp only [this, List.getElem_cons_succ]
      · rw [dif_neg h, dif_neg (fun c => by simp only [List.length_cons] at c; omega),
          Memory.read_write_other _ _ _ _ hx]

theorem storeBytes_bytes (m : Memory) (l : List Byte) : (storeBytes m 0 l).bytes l.length = l := by
  apply Memory.bytes_eq rfl
  intro i hi
  rw [storeBytes_read, dif_pos ⟨Nat.zero_le _, by omega⟩]
  rfl

/-- Bytes without a 0x7E are dropped in FindStart (44_receive.md R74). -/
theorem rxRun_noise {noise : List Byte} {s : State} (hs : s.pState = .findStart) (hn : ∀ b ∈ noise, b ≠ Config.START) :
    rxRun noise s = .more { s with rxq := if noise = [] then s.rxq else [] } := by
  induction noise generalizing s with
  | nil => rfl
  | cons b rest ih =>
    have hb : b ≠ Config.START := hn b (by simp)
    rw [rxRun_cons_more (s' := { s with rxq := rest }) (by simp [rxStep, hs, rxFindStart, hb]),
      ih (by exact hs) (fun c hc => hn c (by simp [hc]))]
    cases rest <;> rfl

/-- START, id, overhead and an accepted length bring the parser from FindStart to FindPayload (R74 to R77). -/
theorem rxRun_header {s : State} (id ovh len : Byte) (rest : List Byte) (hs : s.pState = .findStart)
    (h1 : 1 ≤ len.toNat) (h2 : len.toNat ≤ 254) :
    rxRun (Config.START :: id :: ovh :: len :: rest) s =
      rxRun rest { s with rxq := rest, pId := id, pOvh := ovh, pLen := len, pCur := 0, pState := .findPayload } := by
  simp [rxRun, rxStep, hs, rxFindStart, rxFindId, rxFindOverhead, rxFindLength, Config.MAX_PAYLOAD, h1, h2]

/-- Payload bytes, no more than the payload lacks (R78, R81). -/
theorem rxRun_payload {s : State} (payload : List Byte) (hs : s.pState = .findPayload) (hl : s.pLen.toNat ≤ 254)
    (h1 : payload ≠ []) (h2 : s.pCur.toNat + payload.length ≤ s.pLen.toNat) :
    rxRun payload s = .more { s with
      rxq := [], rxbuf := storeBytes s.rxbuf s.pCur.toNat payload
      pCur := BitVec.ofNat 8 (s.pCur.toNat + payload.length)
      pState := if s.pCur.toNat + payload.length = s.pLen.toNat then .findChecksum else .findPayload } := by
  induction payload generalizing s with
  | nil => exact absurd rfl h1
  | cons b rest ih =>
    simp only [List.length_cons] at h2
    have hc : (s.pCur + 1).toNat = s.pCur.toNat + 1 := by rw [BitVec.toNat_add]; simp; omega
    have hcur : s.pCur.toNat < Config.RX_CAP := by show _ < 254; omega
    have hstep : rxStep { s with rxq := rest } b = .more { s with
        rxq := rest, rxbuf := s.rxbuf.write s.pCur.toNat b, pCur := s.pCur + 1
        pState := if s.pCur + 1 = s.pLen then .findChecksum else .findPayload } := by
      simp [rxStep, hs, rxFindPayload, hcur]
    rw [rxRun_cons_more hstep]
    cases rest with
    | nil =>
      have e : (s.pCur + 1 = s.pLen) ↔ s.pCur.toNat + 1 = s.pLen.toNat := by rw [← BitVec.toNat_inj, hc]
      have e2 : s.pCur + 1 = BitVec.ofNat 8 (s.pCur.toNat + 1) := by
        apply BitVec.eq_of_toNat_eq; rw [hc, BitVec.toNat_ofNat]; omega
      simp only [rxRun, List.length_cons, List.length_nil, Nat.zero_add, e, storeBytes]
      rw [e2]
    | cons c l =>
      simp only [List.length_cons] at h2
      have hne : ¬ s.pCur + 1 = s.pLen := by rw [← BitVec.toNat_inj, hc]; omega
      rw [ih (s := { s with
          rxq := c :: l, rxbuf := s.rxbuf.write s.pCur.toNat b, pCur := s.pCur + 1
          pState := if s.pCur + 1 = s.pLen then .findChecksum else .findPayload })
        (if_neg hne) hl (by simp) (by simp only [hc, List.length_cons]; omega)]
      simp only [hc, List.length_cons, storeBytes, Nat.add_assoc, Nat.add_comm 1]

end Sys2Proof.Machine
end

