-- ==== Sys2Proof/Laws/Exec.lean ====
section
/-! SUPPORT. What a command can do, and what SERVICE can do, each said once. -/

namespace Sys2Proof.Machine

/-- The five shapes of a command: a read answers one word, TXWR out of range raises CERR, TXWR writes one byte, SEND
stuffs TXBUF and hands a frame to the transport, and SERVICE. -/
theorem exec_cases (i : Instr) (s : State) :
    (∃ (c : Bool) (v : Byte), readsOnly i = true ∧ (c = true → v = 0#8) ∧ exec i s = .next (s.answer (rspWord c 0#8 v))) ∨
    (∃ a d, i = .txwr a d ∧ exec i s = .next s.raiseCerr) ∨
    (∃ a d, i = .txwr a d ∧ a.toNat < 254 ∧
      exec i s = .next ({ s with txbuf := s.txbuf.write a.toNat d }.respond 0#8 0#8)) ∨
    (∃ len id, i = .send len id ∧ exec i s =
      .next ({ s with txbuf := stuff s.txbuf (clampLen len) }.transportWrite (s.sendFrame len id))) ∨
    i = .service := by
  cases i with
  | txwr a d =>
    by_cases h : a.toNat ≤ 253
    · exact .inr (.inr (.inl ⟨a, d, rfl, by omega, by simp only [exec, execTxwr, bufAddr_of_le h]; rfl⟩))
    · exact .inr (.inl ⟨a, d, rfl, by simp only [exec, execTxwr, bufAddr_of_gt (Nat.lt_of_not_le h)]⟩)
  | send len id => exact .inr (.inr (.inr (.inl ⟨len, id, rfl, rfl⟩)))
  | service => exact .inr (.inr (.inr (.inr rfl)))
  | nop => exact .inl ⟨false, 0, rfl, by decide, rfl⟩
  | crctab x => exact .inl ⟨false, _, rfl, nofun, rfl⟩
  | crceval x y => exact .inl ⟨false, _, rfl, nofun, rfl⟩
  | ovh x => exact .inl ⟨false, _, rfl, nofun, rfl⟩
  | lasts x =>
    left; simp only [exec, execLasts]
    cases findLastSentinel s.txbuf x.toNat with
    | none => exact ⟨false, 0xFF, rfl, nofun, rfl⟩
    | some j => exact ⟨false, BitVec.ofNat 8 j, rfl, nofun, rfl⟩
  | txrd x =>
    left; simp only [exec, execTxrd, readCommand]
    cases bufAddr x with
    | none => exact ⟨true, 0, rfl, fun _ => rfl, rfl⟩
    | some j => exact ⟨false, _, rfl, nofun, rfl⟩
  | rxrd x =>
    left; simp only [exec, execRxrd, readCommand]
    cases bufAddr x with
    | none => exact ⟨true, 0, rfl, fun _ => rfl, rfl⟩
    | some j => exact ⟨false, _, rfl, nofun, rfl⟩
  | rdreg x =>
    left; simp only [exec, execRdreg]
    cases selectReg x with
    | none => exact ⟨true, 0, rfl, fun _ => rfl, rfl⟩
    | some j => exact ⟨false, _, rfl, nofun, rfl⟩
  | crctx x =>
    left; simp only [exec, execCrctx, checksumCommand]
    cases bufLen x with
    | none => exact ⟨true, 0, rfl, fun _ => rfl, rfl⟩
    | some j => exact ⟨false, _, rfl, nofun, rfl⟩
  | crcrx x =>
    left; simp only [exec, execCrcrx, checksumCommand]
    cases bufLen x with
    | none => exact ⟨true, 0, rfl, fun _ => rfl, rfl⟩
    | some j => exact ⟨false, _, rfl, nofun, rfl⟩

/-- What SERVICE can do when it answers: the parser moves on, RXQ loses bytes from its head, and one outcome ends the
call. -/
theorem execService_cases {s t : State} (h : execService s = .next t) :
    ∃ (s' : State) (st : Status) (br : Byte), t = s'.finishService st br ∧ s' = s'.over { s with rxq := s'.rxq } ∧ s'.ct = s.ct ∧
      (s'.ups = s.ups ∨ (s'.ups = true ∧ s.pState = .undefined)) ∧
      (∃ used, s.rxq = used ++ s'.rxq ∧ (s.rxq ≠ [] → used ≠ [])) ∧
      (st = .noData ↔ s.rxq = []) ∧
      (st ≠ .noData ∧ st ≠ .continuing → s'.pState = .findStart) ∧
      (st ≠ .newData → br = 0x00) ∧ (st = .newData → br = s'.pLen) ∧
      (st = .continuing → s.pState ≠ .undefined → s'.rxq = []) := by
  by_cases hq : s.rxq = []
  · rw [execService_empty hq] at h
    obtain rfl := Host.Outcome.next.inj h
    exact ⟨s, .noData, 0x00, rfl, rfl, rfl, .inl rfl, ⟨[], rfl, fun c => absurd hq c⟩, by simp [hq], by simp, by simp,
      by simp, fun _ _ => hq⟩
  · rw [execService_eq_run hq] at h
    have hs := rxRun_state s.rxq s
    cases hr : rxRun s.rxq s with
    | more s' =>
      rw [hr] at h hs
      obtain rfl := Host.Outcome.next.inj h
      obtain ⟨h1, h2, h3, h4, h5⟩ := hs
      exact ⟨s', .continuing, 0x00, rfl, h1, h2, .inl h3, ⟨s.rxq, by simp [h4 hq], id⟩, by simp [hq], by simp,
        by simp, by simp, fun _ _ => h4 hq⟩
    | term s' st br =>
      rw [hr] at h hs
      obtain rfl := Host.Outcome.next.inj h
      obtain ⟨h1, h2, h3, ⟨used, h4, h5⟩, h6, h7, h8, h9, h10⟩ := hs
      exact ⟨s', st, br, rfl, h1, h2, .inl h3, ⟨used, h5, fun _ => h4⟩, by simp [hq, h8], fun _ => h6, h10, h9,
        fun c => absurd c h7⟩
    | abort s' =>
      rw [hr] at h hs
      obtain rfl := Host.Outcome.next.inj h
      obtain ⟨h1, ⟨used, h2, h3⟩, h4⟩ := hs
      refine ⟨s', .continuing, 0x00, rfl, ?_, ?_, .inr ⟨?_, h4⟩, ⟨used, h3, fun _ => h2⟩, by simp [hq], by simp,
        by simp, by simp, fun _ c => absurd h4 c⟩
      · rw [h1]; rfl
      · rw [h1]
      · rw [h1]
    | outside => rw [hr] at h; cases h

/-- A command gives at most one outcome: where it does not answer, it is SERVICE with an index outside RXBUF. -/
theorem Inv.execService_next {s : State} (h : Inv s) : ∃ t, execService s = .next t := by
  by_cases hq : s.rxq = []
  · exact ⟨_, execService_empty hq⟩
  · rw [execService_eq_run hq]
    have hk := h.rxRun_keeps s.rxq
    cases hr : rxRun s.rxq s with
    | more s' => exact ⟨_, rfl⟩
    | term s' st br => exact ⟨_, rfl⟩
    | abort s' => rw [hr] at hk; exact hk.elim
    | outside => rw [hr] at hk; exact hk.elim

/-- From a state that meets the invariant every command answers a next state. -/
theorem Inv.exec_next {s : State} (h : Inv s) (i : Instr) : ∃ t, exec i s = .next t := by
  rcases exec_cases i s with ⟨c, v, _, _, e⟩ | ⟨a, d, _, e⟩ | ⟨a, d, _, _, e⟩ | ⟨len, id, _, e⟩ | rfl
  · exact ⟨_, e⟩
  · exact ⟨_, e⟩
  · exact ⟨_, e⟩
  · exact ⟨_, e⟩
  · exact h.execService_next

/-- A command writes neither POLY nor CT nor the events to come (10_state.md R27). -/
theorem exec_fixed {i : Instr} {s t : State} (h : exec i s = .next t) :
    t.poly = s.poly ∧ t.ct = s.ct ∧ t.inputs = s.inputs := by
  rcases exec_cases i s with ⟨c, v, _, _, e⟩ | ⟨a, d, _, e⟩ | ⟨a, d, _, _, e⟩ | ⟨len, id, _, e⟩ | rfl
  · rw [e] at h; obtain rfl := Host.Outcome.next.inj h; exact ⟨rfl, rfl, rfl⟩
  · rw [e] at h; obtain rfl := Host.Outcome.next.inj h; exact ⟨rfl, rfl, rfl⟩
  · rw [e] at h; obtain rfl := Host.Outcome.next.inj h; exact ⟨rfl, rfl, rfl⟩
  · rw [e] at h; obtain rfl := Host.Outcome.next.inj h
    rw [State.transportWrite_eq]
    refine ⟨?_, ?_, ?_⟩ <;> · unfold State.dropWrite; split <;> rfl
  · obtain ⟨s', st, br, rfl, h1, h2, _⟩ := execService_cases h
    exact ⟨by rw [h1]; rfl, h2, by rw [h1]; rfl⟩

end Sys2Proof.Machine
end

