-- ==== Sys2Proof/Laws/PerInstr.lean ====
section
/-! SUPPORT. The family OpcodeField: what the word of a command shares with its row of spec/opcode_table.json. -/

/-- Under the mask 0xFF000000 the word of i is its row's match, and the bits of the row's reserved_zero_mask are 0. -/
def Sys2Proof.Laws.OpcodeField.Statement (i : Sys2Proof.Instr) : Prop :=
  Sys2Proof.encode i &&& 0xFF000000#32 = i.row.pattern ∧ Sys2Proof.encode i &&& i.row.reserved = 0#32

namespace Sys2Proof.Laws.OpcodeField

/-- A built word under the opcode mask. -/
theorem opcodeMask (op a b c : Byte) : cmdWord op a b c &&& 0xFF000000#32 = cmdWord op 0 0 0 := by
  simp only [cmdWord]
  apply BitVec.eq_of_getLsbD_eq
  intro k hk
  simp only [BitVec.getLsbD_and, BitVec.getLsbD_append]
  interval_cases k <;> simp

/-- A built word with C = 0 under the mask of C. -/
theorem maskC (op a b : Byte) : cmdWord op a b 0 &&& 0x000000FF#32 = 0#32 := by
  simp only [cmdWord]
  apply BitVec.eq_of_getLsbD_eq
  intro k hk
  simp only [BitVec.getLsbD_and, BitVec.getLsbD_append]
  interval_cases k <;> simp

/-- A built word with B = C = 0 under the mask of both. -/
theorem maskBC (op a : Byte) : cmdWord op a 0 0 &&& 0x0000FFFF#32 = 0#32 := by
  simp only [cmdWord]
  apply BitVec.eq_of_getLsbD_eq
  intro k hk
  simp only [BitVec.getLsbD_and, BitVec.getLsbD_append]
  interval_cases k <;> simp

theorem nop : Statement .nop := by unfold Statement; decide
theorem txwr (addr data : Byte) : Statement (.txwr addr data) := ⟨(opcodeMask _ _ _ _).trans rfl, maskC _ _ _⟩
theorem txrd (addr : Byte) : Statement (.txrd addr) := ⟨(opcodeMask _ _ _ _).trans rfl, maskBC _ _⟩
theorem rxrd (addr : Byte) : Statement (.rxrd addr) := ⟨(opcodeMask _ _ _ _).trans rfl, maskBC _ _⟩
theorem send (len id : Byte) : Statement (.send len id) := ⟨(opcodeMask _ _ _ _).trans rfl, maskC _ _ _⟩
theorem service : Statement .service := by unfold Statement; decide
theorem rdreg (sel : Byte) : Statement (.rdreg sel) := ⟨(opcodeMask _ _ _ _).trans rfl, maskBC _ _⟩
theorem crctab (index : Byte) : Statement (.crctab index) := ⟨(opcodeMask _ _ _ _).trans rfl, maskBC _ _⟩
theorem crceval (acc byte : Byte) : Statement (.crceval acc byte) := ⟨(opcodeMask _ _ _ _).trans rfl, maskC _ _ _⟩
theorem crctx (len : Byte) : Statement (.crctx len) := ⟨(opcodeMask _ _ _ _).trans rfl, maskBC _ _⟩
theorem crcrx (len : Byte) : Statement (.crcrx len) := ⟨(opcodeMask _ _ _ _).trans rfl, maskBC _ _⟩
theorem ovh (len : Byte) : Statement (.ovh len) := ⟨(opcodeMask _ _ _ _).trans rfl, maskBC _ _⟩
theorem lasts (len : Byte) : Statement (.lasts len) := ⟨(opcodeMask _ _ _ _).trans rfl, maskBC _ _⟩

end Sys2Proof.Laws.OpcodeField
end

