-- ==== Sys2Proof/Laws/Table.lean ====
section
/-! SUPPORT. The checksum table: its entries, the table step as a linear map, and the checksum fold. -/

namespace Sys2Proof.Machine

theorem tableFrom_getElem (poly : Byte) (i count k : Nat) (h : k < (tableFrom poly i count).length) :
    (tableFrom poly i count)[k] = tableEntry poly (BitVec.ofNat 8 (i + k)) := by
  induction count generalizing i k with
  | zero => simp [tableFrom] at h
  | succ n ih =>
    cases k with
    | zero => rfl
    | succ k =>
      simp only [tableFrom, List.getElem_cons_succ]
      rw [ih]; congr 2; omega

/-- The entry of the built table at a byte (41_checksum.md R53). -/
theorem buildTable_getElem (poly i : Byte) : (buildTable poly)[i.toNat]'i.isLt = tableEntry poly i := by
  have h := tableFrom_getElem poly 0 256 i.toNat (by rw [tableFrom_length]; exact i.isLt)
  simp only [Nat.zero_add, BitVec.ofNat_toNat, BitVec.setWidth_eq] at h
  rw [← h]
  unfold buildTable
  simp only [Vector.getElem_mk, List.getElem_toArray]

/-- Evaluate on the built table (R54). -/
theorem evaluate_buildTable (poly acc b : Byte) : evaluate (buildTable poly) acc b = tableEntry poly (acc ^^^ b) :=
  buildTable_getElem poly (acc ^^^ b)

theorem checksumOf_nil (ct : Vector Byte 256) : checksumOf ct [] = 0x00 := rfl

theorem checksumOf_append (ct : Vector Byte 256) (l : List Byte) (b : Byte) :
    checksumOf ct (l ++ [b]) = evaluate ct (checksumOf ct l) b := by
  simp [checksumOf]

/-- The table step is linear over GF(2). -/
theorem tableStep_xor (poly a b : Byte) : tableStep poly (a ^^^ b) = tableStep poly a ^^^ tableStep poly b := by
  unfold tableStep
  rw [BitVec.msb_xor, BitVec.shiftLeft_xor_distrib]
  cases a.msb <;> cases b.msb <;> simp <;> ext k hk <;> simp <;> grind

theorem tableSteps_xor (poly : Byte) (n : Nat) (a b : Byte) :
    tableSteps poly n (a ^^^ b) = tableSteps poly n a ^^^ tableSteps poly n b := by
  induction n generalizing a b with
  | zero => rfl
  | succ n ih => rw [tableSteps, tableSteps, tableSteps, tableStep_xor, ih]

@[simp] theorem tableStep_zero (poly : Byte) : tableStep poly 0#8 = 0#8 := rfl

@[simp] theorem tableSteps_zero (poly : Byte) (n : Nat) : tableSteps poly n 0#8 = 0#8 := by
  induction n with
  | zero => rfl
  | succ n ih => rw [tableSteps, tableStep_zero, ih]

end Sys2Proof.Machine
end

