-- ==== Sys2Proof/Tests/Slice0.lean ====
section
/-! SUPPORT. The model's own tests: well-formedness, decoding of words written out from 30_encoding.md R47 and R52, the
vectors of 95_test_vectors.md, and for every statement with hypotheses a state and operands that meet them. Every
expected value is from the spec's file named in the test's comment. -/

namespace Sys2Proof.Tests

set_option Elab.async false -- one test at a time keeps the memory of a build small

open Sys2Proof Sys2Proof.Machine

/-! ### Helpers -/

/-- A buffer that starts with the bytes given. -/
def buf (l : List Byte) : Memory := (l.zipIdx).foldl (fun m c => m.write c.2 c.1) []

/-- A state with TXBUF starting with the bytes given, and a transport that writes everything once. -/
def tx (l : List Byte) : State := { State.reset with txbuf := buf l, writeResults := [.ok] }

/-- A state with RXQ given. -/
def rx (q : List Byte) : State := { State.reset with rxq := q }

/-- The state after one command word. -/
def after (s : State) (w : Word) : Option State :=
  match step (s.issueFirst w) with
  | .next t => some t
  | .fault _ => none
  | .refused _ => none

/-- The response to one command word. -/
def rsp (s : State) (w : Word) : Option Word := (after s w).bind fun t => t.responses.getLast?

/-- The frame of Scenario A, with the checksum of vector S-A. -/
def frameA : List Byte := [0x7E, 0x00, 0xFF, 0x05, 0x01, 0x02, 0x03, 0x04, 0x05, 0x80, 0x81]

/-! ### Well-formedness (20_memory.md R29) -/

theorem test_wf_txwr : (Instr.txwr 254 0).wf = false ∧ (Instr.txwr 253 0).wf = true := by decide
theorem test_wf_txrd : (Instr.txrd 254).wf = false ∧ (Instr.txrd 253).wf = true := by decide
theorem test_wf_rxrd : (Instr.rxrd 254).wf = false ∧ (Instr.rxrd 253).wf = true := by decide
theorem test_wf_rdreg : (Instr.rdreg 9).wf = false ∧ (Instr.rdreg 8).wf = true := by decide
theorem test_wf_crctx : (Instr.crctx 255).wf = false ∧ (Instr.crctx 254).wf = true := by decide
theorem test_wf_crcrx : (Instr.crcrx 255).wf = false ∧ (Instr.crcrx 254).wf = true := by decide

/-! ### Decoding, words from 30_encoding.md R52 -/

theorem test_decode_nop : decodeTableWord 32 0x00000000 = some .nop := by decide
theorem test_decode_txwr : decodeTableWord 32 0x01FD7E00 = some (.txwr 0xFD 0x7E) := by decide
theorem test_decode_txrd : decodeTableWord 32 0x02030000 = some (.txrd 3) := by decide
theorem test_decode_rxrd : decodeTableWord 32 0x03040000 = some (.rxrd 4) := by decide
theorem test_decode_send : decodeTableWord 32 0x04057E00 = some (.send 5 0x7E) := by decide
theorem test_decode_service : decodeTableWord 32 0x05000000 = some .service := by decide
theorem test_decode_rdreg : decodeTableWord 32 0x06080000 = some (.rdreg 8) := by decide
theorem test_decode_crctab : decodeTableWord 32 0x077E0000 = some (.crctab 0x7E) := by decide
theorem test_decode_crceval : decodeTableWord 32 0x089B0200 = some (.crceval 0x9B 0x02) := by decide
theorem test_decode_crctx : decodeTableWord 32 0x09FE0000 = some (.crctx 0xFE) := by decide
theorem test_decode_crcrx : decodeTableWord 32 0x0A050000 = some (.crcrx 5) := by decide
theorem test_decode_ovh : decodeTableWord 32 0x0BFF0000 = some (.ovh 0xFF) := by decide
theorem test_decode_lasts : decodeTableWord 32 0x0C050000 = some (.lasts 5) := by decide

/-- R48 and R91: reserved and undefined words are refused by name. -/
theorem test_decode_refuses :
    decode 0x0D000000 = .error (.undefinedOpcode 0x0D) ∧ decode 0xFF123456 = .error (.undefinedOpcode 0xFF) ∧
    decode 0x00010000 = .error (.reservedField 0x00) ∧ decode 0x02010100 = .error (.reservedField 0x02) ∧
    decode 0x04050001 = .error (.reservedField 0x04) := by decide

/-- The pseudo-instructions of R52. -/
theorem test_assembler :
    writeRaw 252 [1, 2] = some [.txwr 252 1, .txwr 253 2] ∧ writeRaw 253 [1, 2] = none ∧
    readRaw 252 2 = some [.rxrd 252, .rxrd 253] ∧ readRaw 253 2 = none ∧ sendDefault 5 = .send 5 0 := by decide

/-! ### The vectors of 95_test_vectors.md -/

/-- K1, K2. -/
theorem test_nop : rsp State.reset 0x00000000 = some 0x00000000 ∧ rsp State.reset 0x00010000 = some 0x00010000 := by
  decide +kernel

/-- M2, M3. -/
theorem test_txwr :
    (after State.reset 0x01FD7E00).map (fun t => (t.txbuf.read 253, t.responses)) = some (0x7E, [0x00000000]) ∧
    (after State.reset 0x01FE0100).map (fun t => (t.txbuf, t.responses)) = some ([], [0x00010000]) := by decide +kernel

/-- M4, M8. -/
theorem test_txrd :
    rsp (tx [0, 0, 0, 0x7E]) 0x02030000 = some 0x0000007E ∧ rsp (tx [0, 0, 0, 0x7E]) 0x02010100 = some 0x00010000 := by
  decide +kernel

/-- M6, M7. -/
theorem test_rxrd :
    ((after (rx frameA) 0x05000000).bind fun t => rsp t 0x03040000) = some 0x00000005 ∧
    rsp State.reset 0x03FF0000 = some 0x00010000 := by decide +kernel

/-- X2. -/
theorem test_send :
    (after (tx [0x01, 0x7E, 0x02, 0x7E, 0x03]) 0x04057E00).map (fun t => (t.txq, t.responses, t.txbuf.bytes 5)) =
      some ([0x7E, 0x7E, 0x01, 0x05, 0x01, 0x02, 0x02, 0x00, 0x03, 0xEA, 0x81], [0x00000001],
        [0x01, 0x02, 0x02, 0x00, 0x03]) := by decide +kernel

/-- X6: a failed write that sent four bytes. -/
theorem test_send_failed :
    (after { tx [1, 2, 3, 4, 5] with writeResults := [.failed 4] } 0x04050000).map (fun t => (t.txq, t.responses)) =
      some ([0x7E, 0x00, 0xFF, 0x05], [0x00000000]) := by decide +kernel

/-- RV6: the id is 7E and the payload is destuffed. -/
theorem test_service :
    (after (rx [0x7E, 0x7E, 0x00, 0x01, 0x00, 0x00, 0x81]) 0x05000000).map
      (fun t => (t.responses, t.rxbuf.read 0, t.pId, t.pOvh, t.pLen)) =
      some ([0x00000201], 0x7E, 0x7E, 0x00, 0x01) := by decide +kernel

/-- S-C: a corrupted checksum byte; the STOP byte stays in RXQ. -/
theorem test_service_checksum :
    (after (rx [0x7E, 0x00, 0xFF, 0x05, 0x01, 0x02, 0x03, 0x04, 0x05, 0x81, 0x81]) 0x05000000).map
      (fun t => (t.responses, t.rxq, t.pState)) = some ([0x00000000], [0x81], .findStart) := by decide +kernel

/-- K6, K7. -/
theorem test_rdreg : rsp State.reset 0x06000000 = some 0x00000003 ∧ rsp State.reset 0x06090000 = some 0x00010000 := by
  decide +kernel

/-- K5; K10 after RV15. -/
theorem test_rdreg_poly_fault :
    rsp State.reset 0x06080000 = some 0x0000009B ∧
    ((after { rx [0x7E, 0x05] with pState := .undefined } 0x05000000).bind fun t => rsp t 0x06070000) =
      some 0x00000001 := by decide +kernel

/-- CS14, CS15. -/
theorem test_crctab : rsp State.reset 0x077E0000 = some 0x000000EB ∧ rsp State.reset 0x07050100 = some 0x00010000 := by
  decide +kernel

/-- CS12, CS13. -/
theorem test_crceval : rsp State.reset 0x089B0200 = some 0x000000BB ∧ rsp State.reset 0x08555500 = some 0x00000000 := by
  decide +kernel

/-- CS5, CS17. -/
theorem test_crctx :
    rsp (tx [1, 2, 3, 4, 5]) 0x09050000 = some 0x00000080 ∧ rsp State.reset 0x09FF0000 = some 0x00010000 := by
  decide +kernel

/-- R60's example: CRCRX 5 after Scenario B. -/
theorem test_crcrx :
    ((after (rx frameA) 0x05000000).bind fun t => rsp t 0x0A050000) = some 0x00000080 ∧
    rsp State.reset 0x0AFF0000 = some 0x00010000 := by decide +kernel

/-- S12, S14. -/
theorem test_ovh :
    rsp (tx [0x01, 0x7E, 0x02, 0x7E, 0x03]) 0x0B050000 = some 0x00000001 ∧
    rsp (tx [0x7E]) 0x0BFF0000 = some 0x000000FF := by decide +kernel

/-- S12, S15. -/
theorem test_lasts :
    rsp (tx [0x01, 0x7E, 0x02, 0x7E, 0x03]) 0x0C050000 = some 0x00000003 ∧
    rsp (tx [0x7E]) 0x0C000000 = some 0x000000FF := by decide +kernel

/-- DW3: the walk leaves the buffer and stops without a write. -/
theorem test_destuff_walk :
    (destuff [(250, 0x0A)] 0xFA).read 250 = 0x7E ∧ destuff [(250, 0x0A)] 0xFE = [(250, 0x0A)] ∧
    (destuff [(250, 0x0A)] 0xFA).read 253 = 0x00 := by decide +kernel

/-- withFetchWord puts the word where the next step takes it. -/
theorem test_withFetchWord : step (State.reset.withFetchWord 32 0x077E0000) = exec (.crctab 0x7E) State.reset := rfl

/-! ### Witnesses: for every statement with hypotheses, data that meets them, one for each clause -/

theorem reset_inv : Inv State.reset := by
  constructor <;> first | rfl | decide

/-- A state of the invariant in the middle of a payload. -/
def midPayload : State :=
  { State.reset with pState := .findPayload, pLen := 254, pCur := 253, rxq := [0x44] }

theorem midPayload_inv : Inv midPayload := by
  constructor <;> first | rfl | decide

theorem witness_EncodeOfDecodeIsTheWord : decode 0x01FD7E00 = .ok (.txwr 0xFD 0x7E) := by decide

theorem witness_ReservedAndUndefinedWordsRaiseCerr :
    0x0C < (0x0D : Byte).toNat ∧ ((0x0C : Byte).toNat ≤ 0x0C ∧ (1 : Byte) ≠ 0) ∧
    ((0x02 : Byte).toNat ≤ 0x0C ∧ (1 : Byte) ≠ 0 ∧ (0x02 : Byte) ≠ 0x01 ∧ (0x02 : Byte) ≠ 0x04 ∧ (0x02 : Byte) ≠ 0x08) ∧
    ((0x05 : Byte).toNat ≤ 0x0C ∧ (1 : Byte) ≠ 0 ∧ ((0x05 : Byte) = 0x00 ∨ (0x05 : Byte) = 0x05)) ∧
    (0xFF : Byte) ≠ 0x00 := by decide

/-- RaisesCerr's premise, for any word. -/
theorem witness_RaisesCerr (w : Word) : (State.reset.issueFirst w).inputs = .command w :: [] := rfl

theorem witness_StepRunsTheIssuedCommand :
    (State.reset.issueFirst 0x05000000).inputs = .command 0x05000000 :: [] ∧ decode 0x05000000 = .ok .service := by
  decide

theorem witness_LinkAgentsTouchOnlyTheQueues :
    State.reset.inputs = [] ∧
    ({ State.reset with inputs := [.linkIn [0x7E]] } : State).inputs = .linkIn [0x7E] :: [] ∧
    ({ State.reset with txq := [1, 2, 3], inputs := [.linkOut 2] } : State).txq = [1, 2] ++ [3] ∧
    ({ State.reset with txq := [1, 2, 3], inputs := [.linkOut 2] } : State).inputs =
      .linkOut ([1, 2] : List Byte).length :: [] := by decide

theorem witness_ResetGivesTheResetValues :
    ({ State.reset with inputs := [.reset] } : State).inputs = .reset :: [] := rfl

theorem witness_OutOfRangeOperandsRaiseCerr :
    253 < (254 : Byte).toNat ∧ 8 < (9 : Byte).toNat ∧ 254 < (255 : Byte).toNat := by decide

theorem witness_CerrChangesNoState :
    ∃ s t : State, s.inputs = .command 0x0D000000 :: [] ∧ step s = .next t ∧
      t.responses = s.responses ++ [0x00010000#32] ∧ (0x00010000#32).getLsbD 16 = true :=
  ⟨State.reset.issueFirst 0x0D000000, State.reset.raiseCerr, rfl, rfl, rfl, rfl⟩

theorem witness_EveryCommandGivesOneResponse :
    (∃ t, exec .nop State.reset = .next t) ∧ (∃ t, exec .service State.reset = .next t) := ⟨⟨_, rfl⟩, _, rfl⟩

/-- The ranges of TXWR, TXRD, RXRD, RDREG, CRCTX and CRCRX at their edges. -/
theorem witness_operandRanges :
    (253 : Byte).toNat ≤ 253 ∧ 253 < (254 : Byte).toNat ∧ 8 < (9 : Byte).toNat ∧
    (254 : Byte).toNat ≤ 254 ∧ 254 < (255 : Byte).toNat ∧ (1 : Byte) ≠ 0 := by decide

theorem witness_RdregAnswersTheSelectedRegister :
    (0 : Byte) = 0 ∧ (0x03 : Byte) = (match State.reset.status with
      | .continuing => 0x03 | .newData => 0x02 | .noData => 0x01
      | .checksumError => 0x00 | .payloadLengthError => 0xFF | .stopByteError => 0xFE) ∧
    (8 : Byte) = 8 ∧ (0x9B : Byte) = State.reset.poly := by decide

theorem witness_CrctabAndCrcevalAnswerTableEntries : State.reset.ct = buildTable State.reset.poly := rfl

/-- A first sentinel at the last legal index, none below the length, and a length above 254. -/
theorem witness_OvhAnswersTheFirstSentinel :
    ((254 : Byte).toNat ≤ 254 ∧ 253 < (254 : Byte).toNat ∧ Memory.read [(253, 0x7E)] 253 = 0x7E ∧
      ∀ j, j < 253 → Memory.read [(253, 0x7E)] j ≠ 0x7E) ∧
    (∀ j, j < (254 : Byte).toNat → Memory.read [] j ≠ 0x7E) ∧ 254 < (255 : Byte).toNat := by decide +kernel

theorem witness_LastsAnswersTheLastSentinel :
    ((254 : Byte).toNat ≤ 254 ∧ 0 < (254 : Byte).toNat ∧ Memory.read [(0, 0x7E)] 0 = 0x7E ∧
      ∀ j, j < (254 : Byte).toNat → 0 < j → Memory.read [(0, 0x7E)] j ≠ 0x7E) ∧
    (∀ j, j < (0 : Byte).toNat → Memory.read [(0, 0x7E)] j ≠ 0x7E) := by decide +kernel

/-- Vector S9: sentinels at 0 and 253 of 254 bytes; index 0 has a next sentinel and 253 is the last. -/
theorem witness_StuffChainsTheSentinels :
    Memory.read [(0, 0x7E), (253, 0x7E)] 0 = 0x7E ∧ Memory.read [(0, 0x7E), (253, 0x7E)] 253 = 0x7E ∧
    (∀ k, k < 253 → 0 < k → Memory.read [(0, 0x7E), (253, 0x7E)] k ≠ 0x7E) ∧
    (∀ j, j < 254 → 253 < j → Memory.read [(0, 0x7E), (253, 0x7E)] j ≠ 0x7E) := by decide +kernel

/-- Starts 255 and 254; a zero; an entry that leads to 253; an entry that leads to 254. -/
theorem witness_DestuffWalksTheChain :
    254 ≤ (0xFF : Byte).toNat ∧ 254 ≤ (0xFE : Byte).toNat ∧ (253 : Byte).toNat < 254 ∧
    Memory.read [] (253 : Byte).toNat = 0x00 ∧
    (Memory.read [(252, 1)] (252 : Byte).toNat ≠ 0x00 ∧
      (252 : Byte).toNat + (Memory.read [(252, 1)] (252 : Byte).toNat).toNat < 254) ∧
    (Memory.read [(253, 1)] (253 : Byte).toNat ≠ 0x00 ∧
      254 ≤ (253 : Byte).toNat + (Memory.read [(253, 1)] (253 : Byte).toNat).toNat) := by decide

theorem witness_DestuffUndoesStuff : 254 ≤ 254 ∧ Memory.wf [(0, 0x7E), (253, 0x7E)] = true := by decide

/-- Vector S7 (a stuffed 7E), and a payload with no sentinel. -/
theorem witness_StuffedPayloadCanHoldTheSentinel :
    (stuff [(0, 0x7E), (126, 0x7E)] 127).read 0 = 0x7E ∧ (∀ i, i < 3 → Memory.read [(0, 1), (1, 2)] i ≠ 0x7E) ∧
    (stuff (stuff [(0, 0x7E), (126, 0x7E)] 127) 127).read 0 ≠ (stuff [(0, 0x7E), (126, 0x7E)] 127).read 0 := by
  decide +kernel

theorem witness_SendEmitsTheFrame :
    (tx [0x01, 0x7E, 0x02, 0x7E, 0x03]).nextWrite = .ok ∧
    ({ tx [1] with writeResults := [.failed 0] } : State).nextWrite = .failed 0 ∧
    5 = min (5 : Byte).toNat 254 ∧ ([0x01, 0x02, 0x02, 0x00, 0x03] : List Byte).length = 5 ∧
    (∀ i, (h : i < 5) → ([0x01, 0x02, 0x02, 0x00, 0x03] : List Byte)[i] =
      (stuff (tx [0x01, 0x7E, 0x02, 0x7E, 0x03]).txbuf 5).read i) ∧
    254 = min (255 : Byte).toNat 254 := by decide +kernel

theorem witness_SendLeavesTheBufferStuffed :
    3 = min (3 : Byte).toNat 254 ∧ (∀ i, i < 3 → (stuff (tx [1, 0x7E, 3]).txbuf 3).read i ≠ 0x7E) := by decide +kernel

/-- A state with another receive path and the same send path, and the other way round. -/
theorem witness_pathsAreSeparate :
    SameSendPath (tx [1]) { tx [1] with rxq := [0x7E], pLen := 9 } ∧
    SameReceivePath (rx [0x7E]) { rx [0x7E] with txbuf := [(0, 1)], txq := [5] } ∧
    (∃ t, exec .service (rx [0x7E]) = .next t) :=
  ⟨⟨rfl, rfl, rfl, rfl, rfl⟩, ⟨rfl, rfl, rfl, rfl, rfl, rfl, rfl, rfl, rfl, rfl, rfl⟩, _, rfl⟩

/-- The rows of 44_receive.md R85, at the edges of their ranges. -/
theorem witness_RxStepFollowsTheTable :
    State.reset.pState = .findStart ∧
    (1 ≤ (0xFE : Byte).toNat ∧ (0xFE : Byte).toNat ≤ 254) ∧ ((0x00 : Byte) = 0x00 ∨ (0xFF : Byte) = 0xFF) ∧
    (midPayload.pState = .findPayload ∧ midPayload.pLen.toNat ≤ 254 ∧
      midPayload.pCur.toNat + 1 = midPayload.pLen.toNat) ∧
    (({ midPayload with pCur := 252 } : State).pCur.toNat + 1 < midPayload.pLen.toNat) ∧
    (({ rx [] with pState := .findChecksum, pLen := 1, pCur := 1 } : State).pLen.toNat ≤ 254 ∧
      (0x00 : Byte) = checksumOf State.reset.ct (State.reset.rxbuf.bytes 1) ∧
      (0x01 : Byte) ≠ checksumOf State.reset.ct (State.reset.rxbuf.bytes 1)) ∧ (0x7E : Byte) ≠ 0x81 := by
  decide +kernel

/-- Each way a byte can end in the loop of SERVICE: on, with and without a byte left; an outcome; the abort. -/
theorem witness_ServiceTakesTheBytesInTurn :
    (∃ s', rxStep { rx [0x7E] with rxq := [] } 0x7E = .more s') ∧
    (∃ s', rxStep { rx [0x7E, 1] with rxq := [1] } 0x7E = .more s') ∧
    (∃ s' t br, rxStep { rx [0x00] with pState := .findLength, rxq := [] } 0x00 = .term s' t br) ∧
    (∃ s', rxStep { rx [0x00] with pState := .undefined, rxq := [] } 0x00 = .abort s') :=
  ⟨⟨_, rfl⟩, ⟨_, rfl⟩, ⟨_, _, _, rfl⟩, _, rfl⟩

theorem witness_ServiceCompletesOnEveryStream : Inv State.reset ∧ Inv midPayload := ⟨reset_inv, midPayload_inv⟩

/-- NoData, Continue and an outcome. -/
theorem witness_ServiceRecordsItsOutcome :
    (∃ t, exec .service State.reset = .next t ∧ t.status = .noData) ∧
    (∃ t, exec .service (rx [0x00]) = .next t ∧ t.status = .continuing ∧ (rx [0x00]).pState ≠ .undefined) ∧
    (∃ t, exec .service { rx [0x81] with pState := .findStop, pLen := 1, pCur := 1, pOvh := 0xFF } = .next t ∧
      t.status = .newData) :=
  ⟨⟨_, rfl, rfl⟩, ⟨_, rfl, rfl, nofun⟩, _, rfl, rfl⟩

theorem witness_UndefinedParserStateResynchronises :
    ({ rx [0x7E, 0x05] with pState := .undefined } : State).pState = .undefined ∧ (rx [0x7E, 0x05]).rxq = 0x7E :: [0x05] := by
  decide

theorem witness_UndefinedStateFaultIsSticky :
    (∃ t, step ({ rx [0x7E] with pState := .undefined }.issueFirst 0x05000000) = .next t ∧ t.faultReg = 0x01) ∧
    (∃ t, step ({ State.reset with ups := true }.issueFirst 0) = .next t ∧ t.faultReg = 0x01) ∧
    (Inv State.reset ∧ step State.reset = .next State.reset) :=
  ⟨⟨_, rfl, rfl⟩, ⟨_, rfl, rfl⟩, reset_inv, rfl⟩

theorem witness_NoiseIsDroppedInFindStart :
    (rx [0x00, 0x81]).pState = .findStart ∧ (rx [0x00, 0x81]).rxq ≠ [] ∧ ∀ b ∈ (rx [0x00, 0x81]).rxq, b ≠ 0x7E := by
  decide

/-- The payload's last byte, at index 253. -/
theorem witness_PayloadBytesAreStoredConsecutively :
    midPayload.pState = .findPayload ∧ midPayload.pLen.toNat ≤ 254 ∧ midPayload.rxq ≠ [] ∧
    midPayload.pCur.toNat + midPayload.rxq.length ≤ midPayload.pLen.toNat := by decide

theorem witness_FrameErrorsAreRecorded :
    ((rx [0x7E, 0, 0xFF, 0x00, 9]).pState = .findStart ∧ (rx [0x7E, 0, 0xFF, 0x00, 9]).rxq = [0x7E, 0, 0xFF, 0x00] ++ [9]) ∧
    ((0x01 : Byte) ≠ checksumOf (rx []).ct [0x00] ∧
      (rx [0x7E, 0, 0xFF, 1, 0x00, 0x01, 9]).rxq =
        [0x7E, 0, 0xFF, BitVec.ofNat 8 ([0x00] : List Byte).length] ++ [0x00] ++ [0x01] ++ [9]) ∧
    ((0x7E : Byte) ≠ 0x81 ∧
      (rx [0x7E, 0, 0xFF, 1, 0x00, 0x00, 0x7E]).rxq =
        [0x7E, 0, 0xFF, BitVec.ofNat 8 ([0x00] : List Byte).length] ++ [0x00] ++
          [checksumOf (rx []).ct [0x00], 0x7E] ++ []) := by decide +kernel

theorem witness_WellFormedFrameAfterNoiseIsDelivered :
    (∀ b ∈ ([0x00, 0x81] : List Byte), b ≠ 0x7E) ∧ 1 ≤ ([1, 2, 3, 4, 5] : List Byte).length ∧
    ([1, 2, 3, 4, 5] : List Byte).length ≤ 254 ∧ (rx ([0x00, 0x81] ++ frameA ++ [9])).pState = .findStart ∧
    (rx ([0x00, 0x81] ++ frameA ++ [9])).rxq =
      [0x00, 0x81] ++ [0x7E, 0x00, 0xFF, BitVec.ofNat 8 ([1, 2, 3, 4, 5] : List Byte).length] ++ [1, 2, 3, 4, 5]
        ++ [checksumOf (rx ([0x00, 0x81] ++ frameA ++ [9])).ct [1, 2, 3, 4, 5], 0x81] ++ [9] := by decide +kernel

theorem witness_SplittingAStreamChangesNoOutcome :
    ∃ t, (rx [0x7E, 0x05]).rxq = [0x7E] ++ [0x05] ∧ (rx [0x7E, 0x05]).pState ≠ .undefined ∧
      exec .service { rx [0x7E, 0x05] with rxq := [0x7E] } = .next t ∧ t.status = .continuing :=
  ⟨_, rfl, nofun, rfl, rfl⟩

/-- The shortest payload; its frame of seven bytes in two pieces. -/
theorem witness_LoopbackDeliversThePayload :
    1 ≤ (1 : Byte).toNat ∧ (1 : Byte).toNat ≤ 254 ∧ (tx [5]).pState = .findStart ∧ (tx [5]).rxq = [] ∧
    (tx [5]).nextWrite = .ok ∧ (∀ p ∈ ([[0x7E, 0, 0xFF]] : List (List Byte)), p ≠ []) ∧
    ([[0x7E, 0, 0xFF]] : List (List Byte)).flatten ++ [1, 5, 0x5A, 0x81] = (tx [5]).sendFrame 1 0 := by decide +kernel

theorem witness_LaunchMeetsTheInvariant : Memory.wf [(0, 0xAA), (253, 0xAA)] = true ∧ Memory.wf [] = true := by decide

theorem witness_EveryStepKeepsTheInvariant :
    Inv midPayload ∧ ∃ t, step { midPayload with inputs := [.command 0x05000000] } = .next t :=
  ⟨midPayload_inv, _, rfl⟩

theorem witness_NoStepStops : Inv midPayload := midPayload_inv

theorem witness_OnlyTheListedCommandsWriteEachState :
    (∃ t, exec (.txwr 0 1) State.reset = .next t) ∧ (∃ t, exec (.send 1 0) State.reset = .next t) ∧
    (∃ t, exec .service State.reset = .next t) ∧ ((∀ a d, Instr.nop ≠ .txwr a d) ∧ ∀ len id, Instr.nop ≠ .send len id) :=
  ⟨⟨_, rfl⟩, ⟨_, rfl⟩, ⟨_, rfl⟩, nofun, nofun⟩

theorem witness_ReadsHaveNoSideEffects : readsOnly (.ovh 255) = true := rfl

theorem witness_TableAndPolynomialNeverChange :
    State.reset.ct = buildTable State.reset.poly ∧ step State.reset = .next State.reset := ⟨rfl, rfl⟩

theorem witness_CanonicalBuffersThatReadAlikeAreEqual :
    Memory.wf [(253, 1)] = true ∧ ∀ a, a < 254 → Memory.read [(253, 1)] a = Memory.read [(253, 1)] a :=
  ⟨by decide, fun _ _ => rfl⟩

theorem witness_WriteRawThenReadRaw :
    254 < 253 + ([1, 2] : List Byte).length ∧ 252 + ([1, 2] : List Byte).length ≤ 254 := by decide

theorem witness_BlocksShareNoState :
    ∃ sys', systemStep 1 [State.reset, rx [0x7E]] = .next sys' := ⟨_, rfl⟩

end Sys2Proof.Tests
end

/-! What a step can do, said once, and from it the statements about FAULT (10_state.md R22) and about POLY and
CT (R7, R12). -/

namespace Sys2Proof.Machine

/-! ### The step -/

/-- What a step that answers can do: hold the state, run a command, raise CERR for a word that is no command, let a link
agent act, or reset. -/
theorem step_cases {s t : State} (h : step s = .next t) :
    (s.inputs = [] ∧ t = s) ∨
    (∃ w rest i, s.inputs = .command w :: rest ∧ decode w = .ok i ∧ exec i { s with inputs := rest } = .next t) ∨
    (∃ w rest e, s.inputs = .command w :: rest ∧ decode w = .error e ∧ t = { s with inputs := rest }.raiseCerr) ∨
    (∃ l rest, s.inputs = .linkIn l :: rest ∧ t = { s with inputs := rest }.linkIn l) ∨
    (∃ n rest, s.inputs = .linkOut n :: rest ∧ t = { s with inputs := rest }.linkOut n) ∨
    (∃ rest, s.inputs = .reset :: rest ∧ t = { s with inputs := rest }.applyReset) := by
  cases hin : s.inputs with
  | nil =>
    rw [step_idle hin] at h
    exact .inl ⟨rfl, (Host.Outcome.next.inj h).symm⟩
  | cons e rest =>
    cases e with
    | command w =>
      rw [step_command hin] at h
      cases hd : decode w with
      | ok i => exact .inr (.inl ⟨w, rest, i, rfl, hd, runWord_ok hd _ ▸ h⟩)
      | error e =>
        rw [runWord_error hd, ← State.raiseCerr_eq] at h
        exact .inr (.inr (.inl ⟨w, rest, e, rfl, hd, (Host.Outcome.next.inj h).symm⟩))
    | linkIn l =>
      rw [step_linkIn hin] at h
      exact .inr (.inr (.inr (.inl ⟨l, rest, rfl, (Host.Outcome.next.inj h).symm⟩)))
    | linkOut n =>
      rw [step_linkOut hin] at h
      exact .inr (.inr (.inr (.inr (.inl ⟨n, rest, rfl, (Host.Outcome.next.inj h).symm⟩))))
    | reset =>
      rw [step_reset hin] at h
      exact .inr (.inr (.inr (.inr (.inr ⟨rest, rfl, (Host.Outcome.next.inj h).symm⟩))))

/-! ### FAULT (10_state.md R22) -/

theorem State.faultReg_eq_one {s : State} : s.faultReg = 0x01 ↔ s.ups = true := by
  unfold State.faultReg; cases s.ups <;> decide

theorem State.faultReg_eq_zero {s : State} : s.faultReg = 0x00 ↔ s.ups = false := by
  unfold State.faultReg; cases s.ups <;> decide

/-- A command leaves UPS as it is, except SERVICE in code 7 of P_STATE, which can set it (44_receive.md R82). -/
theorem exec_ups {i : Instr} {s t : State} (h : exec i s = .next t) :
    t.ups = s.ups ∨ (t.ups = true ∧ i = .service ∧ s.pState = .undefined) := by
  rcases exec_cases i s with ⟨c, v, _, _, e⟩ | ⟨a, d, _, e⟩ | ⟨a, d, _, _, e⟩ | ⟨len, id, _, e⟩ | rfl
  · rw [e] at h; obtain rfl := Host.Outcome.next.inj h; exact .inl rfl
  · rw [e] at h; obtain rfl := Host.Outcome.next.inj h; exact .inl rfl
  · rw [e] at h; obtain rfl := Host.Outcome.next.inj h; exact .inl rfl
  · rw [e] at h; obtain rfl := Host.Outcome.next.inj h; exact .inl (State.transportWrite_ups _ _)
  · obtain ⟨s', st, br, rfl, _, _, hups, _⟩ := execService_cases h
    exact hups.imp_right fun ⟨hset, hp⟩ => ⟨hset, rfl, hp⟩

/-- A step leaves UPS as it is, except a reset, which clears it, and SERVICE in code 7 of P_STATE. -/
theorem step_ups {s t : State} (h : step s = .next t) :
    t.ups = s.ups ∨ (t.ups = false ∧ ∃ rest, s.inputs = .reset :: rest) ∨
    (t.ups = true ∧ s.pState = .undefined ∧ ∃ w rest, s.inputs = .command w :: rest ∧ decode w = .ok .service) := by
  rcases step_cases h with ⟨_, rfl⟩ | ⟨w, rest, i, hin, hd, he⟩ | ⟨w, rest, e, _, _, rfl⟩ | ⟨l, rest, _, rfl⟩ |
    ⟨n, rest, _, rfl⟩ | ⟨rest, hin, rfl⟩
  · exact .inl rfl
  · rcases exec_ups he with hkeep | ⟨hset, rfl, hp⟩
    · exact .inl hkeep
    · exact .inr (.inr ⟨hset, hp, w, rest, hin, hd⟩)
  · exact .inl rfl
  · exact .inl rfl
  · exact .inl rfl
  · exact .inr (.inl ⟨rfl, rest, hin⟩)

/-- A step from a state that meets the invariant leaves UPS clear. -/
theorem Inv.step_ups_clear {s t : State} (hi : Inv s) (h : step s = .next t) : t.ups = false := by
  rcases step_ups h with hkeep | ⟨hclear, _⟩ | ⟨_, hp, _⟩
  · rw [hkeep, hi.ups]
  · exact hclear
  · exact absurd hp hi.pState

/-- Settles O36, by what a step can do to UPS. -/
theorem undefinedStateFaultIsSticky : Obligations.UndefinedStateFaultIsSticky := by
  unfold Obligations.UndefinedStateFaultIsSticky
  refine ⟨fun s => ?_, fun s t h => ⟨?sticky, ?onlyService, ?fromInv⟩, fun s rest hin => ?_⟩
  · rw [State.faultReg_eq_zero, State.faultReg_eq_one]
    exact (Bool.eq_false_or_eq_true s.ups).symm
  case sticky =>
    rw [State.faultReg_eq_one, State.faultReg_eq_one]
    intro hs
    rcases step_ups h with hkeep | ⟨_, hreset⟩ | ⟨hset, _⟩
    · exact .inl (hkeep.trans hs)
    · exact .inr hreset
    · exact .inl hset
  case onlyService =>
    rw [State.faultReg_eq_one, State.faultReg_eq_one]
    intro ht
    rcases step_ups h with hkeep | ⟨hclear, _⟩ | ⟨_, hservice⟩
    · exact .inl (hkeep.symm.trans ht)
    · exact absurd (hclear.symm.trans ht) Bool.false_ne_true
    · exact .inr hservice
  case fromInv => exact fun hi => State.faultReg_eq_zero.2 (hi.step_ups_clear h)
  · exact ⟨_, step_reset hin, rfl⟩

/-! ### POLY and CT (10_state.md R12) -/

/-- A step leaves POLY as it is, and leaves CT as it is unless it is a reset, which builds the table of POLY. -/
theorem step_poly_ct {s t : State} (h : step s = .next t) :
    t.poly = s.poly ∧ (t.ct = s.ct ∨ ((∃ rest, s.inputs = .reset :: rest) ∧ t.ct = buildTable s.poly)) := by
  rcases step_cases h with ⟨_, rfl⟩ | ⟨w, rest, i, _, _, he⟩ | ⟨w, rest, e, _, _, rfl⟩ | ⟨l, rest, _, rfl⟩ |
    ⟨n, rest, _, rfl⟩ | ⟨rest, hin, rfl⟩
  · exact ⟨rfl, .inl rfl⟩
  · obtain ⟨hpoly, hct, _⟩ := exec_fixed he
    exact ⟨hpoly, .inl hct⟩
  · exact ⟨rfl, .inl rfl⟩
  · exact ⟨rfl, .inl rfl⟩
  · exact ⟨rfl, .inl rfl⟩
  · exact ⟨rfl, .inr ⟨⟨rest, hin⟩, rfl⟩⟩

/-- Settles O50: only a reset writes CT, and it builds the table CT already holds. -/
theorem tableAndPolynomialNeverChange : Obligations.TableAndPolynomialNeverChange := by
  unfold Obligations.TableAndPolynomialNeverChange
  refine ⟨State.launch_ct, fun s rest hin => ⟨_, step_reset hin, rfl, rfl⟩, fun s t htable h => ?_⟩
  obtain ⟨hpoly, hkeep | ⟨_, hbuilt⟩⟩ := step_poly_ct h
  · exact ⟨hpoly, hkeep⟩
  · exact ⟨hpoly, hbuilt.trans htable.symm⟩

end Sys2Proof.Machine

/-! The reading commands, one rule per shared operation, and from them the statements about reads without side effects
(20_memory.md R33) and about operands out of range (R29). -/

namespace Sys2Proof.Machine

/-! ### The commands with a ranged operand -/

theorem readCommand_of_le (m : Memory) {a : Byte} (h : a.toNat ≤ 253) (s : State) :
    readCommand m a s = .next { s with responses := s.responses ++ [BitVec.setWidth 32 (m.read a.toNat)] } := by
  rw [readCommand, bufAddr_of_le h]; exact congrArg _ (s.respond_eq _)

theorem readCommand_of_gt (m : Memory) {a : Byte} (h : 253 < a.toNat) (s : State) :
    readCommand m a s = .next { s with responses := s.responses ++ [0x00010000#32] } := by
  rw [readCommand, bufAddr_of_gt h]; exact congrArg _ s.raiseCerr_eq

theorem checksumCommand_of_le (m : Memory) {len : Byte} (h : len.toNat ≤ 254) (s : State) :
    checksumCommand m len s =
      .next { s with responses := s.responses ++ [BitVec.setWidth 32 (checksumOf s.ct (m.bytes len.toNat))] } := by
  rw [checksumCommand, bufLen_of_le h]; exact congrArg _ (s.respond_eq _)

theorem checksumCommand_of_gt (m : Memory) {len : Byte} (h : 254 < len.toNat) (s : State) :
    checksumCommand m len s = .next { s with responses := s.responses ++ [0x00010000#32] } := by
  rw [checksumCommand, bufLen_of_gt h]; exact congrArg _ s.raiseCerr_eq

theorem execTxwr_of_gt {a : Byte} (h : 253 < a.toNat) (d : Byte) (s : State) :
    execTxwr a d s = .next { s with responses := s.responses ++ [0x00010000#32] } := by
  rw [execTxwr, bufAddr_of_gt h]; exact congrArg _ s.raiseCerr_eq

theorem execRdreg_of_some {sel : Byte} {r : RegSel} (h : selectReg sel = some r) (s : State) :
    execRdreg sel s = .next { s with responses := s.responses ++ [BitVec.setWidth 32 (s.readReg r)] } := by
  rw [execRdreg, h]; exact congrArg _ (s.respond_eq _)

theorem execRdreg_of_none {sel : Byte} (h : selectReg sel = none) (s : State) :
    execRdreg sel s = .next { s with responses := s.responses ++ [0x00010000#32] } := by
  rw [execRdreg, h]; exact congrArg _ s.raiseCerr_eq

/-! ### The commands that answer for every operand -/

theorem execCrctab_eq (index : Byte) (s : State) :
    execCrctab index s =
      .next { s with responses := s.responses ++ [BitVec.setWidth 32 (s.ct[index.toNat]'index.isLt)] } :=
  congrArg _ (s.respond_eq _)

theorem execCrceval_eq (acc byte : Byte) (s : State) :
    execCrceval acc byte s =
      .next { s with responses := s.responses ++ [BitVec.setWidth 32 (evaluate s.ct acc byte)] } :=
  congrArg _ (s.respond_eq _)

theorem execOvh_eq (len : Byte) (s : State) :
    execOvh len s =
      .next { s with responses := s.responses ++ [BitVec.setWidth 32 (computeOverhead s.txbuf len.toNat)] } :=
  congrArg _ (s.respond_eq _)

theorem execLasts_of_some {len : Byte} {s : State} {i : Nat} (h : findLastSentinel s.txbuf len.toNat = some i) :
    execLasts len s = .next { s with responses := s.responses ++ [BitVec.setWidth 32 (BitVec.ofNat 8 i)] } := by
  rw [execLasts, h]; exact congrArg _ (s.respond_eq _)

theorem execLasts_of_none {len : Byte} {s : State} (h : findLastSentinel s.txbuf len.toNat = none) :
    execLasts len s = .next { s with responses := s.responses ++ [0x000000FF#32] } := by
  rw [execLasts, h]; exact congrArg _ (s.respond_eq _)

theorem computeOverhead_of_gt (m : Memory) {n : Nat} (h : 254 < n) : computeOverhead m n = 0xFF := if_pos h

theorem findLastSentinel_of_gt (m : Memory) {n : Nat} (h : 254 < n) : findLastSentinel m n = none := if_pos h

/-- Settles O8: each command's rule at an operand out of range. -/
theorem outOfRangeOperandsRaiseCerr : Obligations.OutOfRangeOperandsRaiseCerr := by
  unfold Obligations.OutOfRangeOperandsRaiseCerr
  refine fun s a d => ⟨fun h => ⟨?txwr, ?txrd, ?rxrd⟩, fun h => ?rdreg, fun h => ⟨?crctx, ?crcrx, ?ovh, ?lasts⟩, ?crctab⟩
  case txwr => exact execTxwr_of_gt h d s
  case txrd => exact readCommand_of_gt s.txbuf h s
  case rxrd => exact readCommand_of_gt s.rxbuf h s
  case rdreg => exact execRdreg_of_none (selectReg_of_gt h) s
  case crctx => exact checksumCommand_of_gt s.txbuf h s
  case crcrx => exact checksumCommand_of_gt s.rxbuf h s
  case ovh =>
    rw [exec, execOvh_eq, computeOverhead_of_gt s.txbuf h]
    rfl
  case lasts => exact execLasts_of_none (findLastSentinel_of_gt s.txbuf h)
  case crctab => exact ⟨_, execCrctab_eq a s⟩

/-! ### The reading commands (20_memory.md R33) -/

theorem readCommand_ignores_responses (m : Memory) (a : Byte) (s : State) :
    ∃ r, ∀ l, readCommand m a { s with responses := l } = .next { s with responses := l ++ [r] } := by
  rcases Nat.lt_or_ge 253 a.toNat with h | h
  · exact ⟨_, fun _ => readCommand_of_gt m h _⟩
  · exact ⟨_, fun _ => readCommand_of_le m h _⟩

theorem checksumCommand_ignores_responses (m : Memory) (len : Byte) (s : State) :
    ∃ r, ∀ l, checksumCommand m len { s with responses := l } = .next { s with responses := l ++ [r] } := by
  rcases Nat.lt_or_ge 254 len.toNat with h | h
  · exact ⟨_, fun _ => checksumCommand_of_gt m h _⟩
  · exact ⟨.setWidth 32 (checksumOf s.ct (m.bytes len.toNat)), fun _ => checksumCommand_of_le m h _⟩

/-- A command that only reads gives one word that no response given before it has a part in, and changes nothing. -/
theorem exec_of_readsOnly {i : Instr} (hi : readsOnly i = true) (s : State) :
    ∃ r, ∀ l, exec i { s with responses := l } = .next { s with responses := l ++ [r] } := by
  cases i with
  | txwr a d => nomatch hi
  | send len id => nomatch hi
  | service => nomatch hi
  | nop => exact ⟨_, fun _ => rfl⟩
  | crctab index => exact ⟨.setWidth 32 (s.ct[index.toNat]'index.isLt), fun _ => execCrctab_eq index _⟩
  | crceval acc byte => exact ⟨.setWidth 32 (evaluate s.ct acc byte), fun _ => execCrceval_eq acc byte _⟩
  | ovh len => exact ⟨.setWidth 32 (computeOverhead s.txbuf len.toNat), fun _ => execOvh_eq len _⟩
  | lasts len =>
    cases h : findLastSentinel s.txbuf len.toNat with
    | some j => exact ⟨_, fun _ => execLasts_of_some h⟩
    | none => exact ⟨_, fun _ => execLasts_of_none h⟩
  | rdreg sel =>
    cases h : selectReg sel with
    | some r => exact ⟨.setWidth 32 (s.readReg r), fun _ => execRdreg_of_some h _⟩
    | none => exact ⟨_, fun _ => execRdreg_of_none h _⟩
  | txrd a => exact readCommand_ignores_responses s.txbuf a s
  | rxrd a => exact readCommand_ignores_responses s.rxbuf a s
  | crctx len => exact checksumCommand_ignores_responses s.txbuf len s
  | crcrx len => exact checksumCommand_ignores_responses s.rxbuf len s

/-! ### SEND and SERVICE, issued twice -/

/-- SEND on a transport that writes the whole frame. -/
theorem exec_send_ok (len id : Byte) {s : State} (hok : s.nextWrite = .ok) :
    ∃ t, exec (.send len id) s = .next t ∧ t.txbuf = stuff s.txbuf (clampLen len) ∧
      t.txq = s.txq ++ s.sendFrame len id ∧ t.writeResults = s.writeResults.tail := by
  refine ⟨_, rfl, State.transportWrite_txbuf _ _, ?_, State.transportWrite_writeResults _ _⟩
  rw [State.transportWrite_txq]
  show s.txq ++ s.nextWrite.reached (s.sendFrame len id) = _
  rw [hok]; rfl

/-- Two frames with different overheads differ, in their third byte. -/
theorem State.sendFrame_ne_of_overhead_ne {s t : State} {len id : Byte}
    (h : computeOverhead s.txbuf (clampLen len) ≠ computeOverhead t.txbuf (clampLen len)) :
    s.sendFrame len id ≠ t.sendFrame len id :=
  fun e => h (congrArg (·.getD 2 0) e)

/-- A one-byte payload that is the sentinel, and a transport that writes two whole frames. -/
def sentinelToSend : State := { State.reset with txbuf := [(0, Config.START)], writeResults := [.ok, .ok] }

/-- The stuffing of the first SEND is what the second reads: overhead 0x00 the first time, 0xFF the second. -/
theorem sendTwice_frames_differ :
    ∃ (s t u : State) (F F' : List Byte), s.nextWrite = .ok ∧ t.nextWrite = .ok ∧
      exec (.send 1 0) s = .next t ∧ exec (.send 1 0) t = .next u ∧
      t.txq = s.txq ++ F ∧ u.txq = t.txq ++ F' ∧ F ≠ F' := by
  have hs : sentinelToSend.nextWrite = .ok := rfl
  obtain ⟨t, hst, htxbuf, htq, hleft⟩ := exec_send_ok 1 0 hs
  have ht : t.nextWrite = .ok := State.nextWrite_fixed t .ok [] hleft
  obtain ⟨u, htu, _, huq, _⟩ := exec_send_ok 1 0 ht
  refine ⟨sentinelToSend, t, u, _, _, hs, ht, hst, htu, htq, huq, State.sendFrame_ne_of_overhead_ne ?_⟩
  rw [htxbuf]; decide

/-- One byte that starts no frame waits in RXQ. -/
def noiseToReceive : State := { State.reset with rxq := [0x00] }

/-- The first SERVICE drains RXQ and ends with Continue, so the second ends with NoData. -/
theorem serviceTwice_outcomes_differ :
    ∃ s t u : State, exec .service s = .next t ∧ exec .service t = .next u ∧ t.status ≠ u.status := by
  obtain ⟨t, hst, hdrained, hstatus⟩ : ∃ t, exec .service noiseToReceive = .next t ∧ t.rxq = [] ∧
      t.status = .continuing := ⟨_, rfl, rfl, rfl⟩
  refine ⟨noiseToReceive, t, _, hst, execService_empty hdrained, ?_⟩
  rw [hstatus]; nofun

/-- Settles O48: a read's word and its effect do not depend on the responses given before. -/
theorem readsHaveNoSideEffects : Obligations.ReadsHaveNoSideEffects := by
  unfold Obligations.ReadsHaveNoSideEffects
  refine ⟨fun i s hi => ?_, sendTwice_frames_differ, serviceTwice_outcomes_differ⟩
  obtain ⟨r, hr⟩ := exec_of_readsOnly hi s
  exact ⟨r, hr s.responses, by simpa using hr (s.responses ++ [r])⟩

end Sys2Proof.Machine

/-! The decoder on every word, by its row of the opcode map, and from it the statement about reserved and undefined
encodings (30_encoding.md R48, 46_control.md R91). -/

namespace Sys2Proof

/-! ### The decoder -/

theorem decode_of_undefined {w : Word} (h : 0x0C < (opField w).toNat) :
    decode w = .error (.undefinedOpcode (opField w)) := by
  unfold decode
  split
  case h_14 => rfl
  all_goals omega

/-- A word whose OP is defined meets one row of the opcode map: the row's own command, behind the check of the row's
reserved bits. -/
theorem decode_of_defined {w : Word} (h : (opField w).toNat ≤ 0x0C) :
    ∃ (i : Instr) (reserved : Word), decode w = withReservedZero w reserved i ∧
      reserved = i.row.reserved ∧ opField (encode i) = opField w := by
  unfold decode
  split
  case h_14 =>
    simp only [imp_false] at *
    omega
  all_goals
    rename_i hop
    refine ⟨_, _, rfl, rfl, ?_⟩
    rw [encode, opField_cmdWord, ← BitVec.toNat_inj, hop]
    rfl

/-- Every field of a word that the opcode map marks 0 for OP is 0 (R48). -/
def ReservedFieldsZero (op a b c : Byte) : Prop :=
  c = 0 ∧ (b = 0 ∨ op = 0x01 ∨ op = 0x04 ∨ op = 0x08) ∧ (a = 0 ∨ (op ≠ 0x00 ∧ op ≠ 0x05))

/-- The reserved bits of a command's row are the fields the opcode map marks 0 for the command's OP. -/
theorem cmdWord_and_reserved (i : Instr) (a b c : Byte) :
    cmdWord (opField (encode i)) a b c &&& i.row.reserved = 0#32 ↔
      ReservedFieldsZero (opField (encode i)) a b c := by
  cases i with
  | nop | service => simp [encode, Instr.row, ReservedFieldsZero]; tauto
  | txwr | send | crceval => simp [encode, Instr.row, ReservedFieldsZero]
  | txrd | rxrd | rdreg | crctab | crctx | crcrx | ovh | lasts =>
    simp [encode, Instr.row, ReservedFieldsZero]; tauto

theorem decode_cmdWord_of_undefined {op : Byte} (h : 0x0C < op.toNat) (a b c : Byte) :
    decode (cmdWord op a b c) = .error (.undefinedOpcode op) := by
  simpa using decode_of_undefined (w := cmdWord op a b c) (by simpa using h)

/-- `decode_of_defined` for a word given by its fields. -/
theorem decode_cmdWord_of_defined {op : Byte} (h : op.toNat ≤ 0x0C) (a b c : Byte) :
    ∃ (i : Instr) (reserved : Word), decode (cmdWord op a b c) = withReservedZero (cmdWord op a b c) reserved i ∧
      (cmdWord op a b c &&& reserved = 0#32 ↔ ReservedFieldsZero op a b c) := by
  obtain ⟨i, _, hdecode, rfl, hop⟩ := decode_of_defined (w := cmdWord op a b c) (by simpa using h)
  rw [opField_cmdWord] at hop
  exact ⟨i, i.row.reserved, hdecode, hop ▸ cmdWord_and_reserved i a b c⟩

theorem decode_cmdWord_of_reserved {op a b c : Byte} (h : op.toNat ≤ 0x0C) (hres : ¬ ReservedFieldsZero op a b c) :
    decode (cmdWord op a b c) = .error (.reservedField op) := by
  obtain ⟨i, reserved, hdecode, hiff⟩ := decode_cmdWord_of_defined h a b c
  rw [hdecode, withReservedZero_of_ne (mt hiff.mp hres), opField_cmdWord]

theorem decode_cmdWord_of_reservedFieldsZero {op a b c : Byte} (h : op.toNat ≤ 0x0C)
    (hres : ReservedFieldsZero op a b c) : ∃ i, decode (cmdWord op a b c) = .ok i := by
  obtain ⟨i, reserved, hdecode, hiff⟩ := decode_cmdWord_of_defined h a b c
  exact ⟨i, hdecode.trans (withReservedZero_eq_ok.mpr ⟨hiff.mpr hres, rfl⟩)⟩

end Sys2Proof

namespace Sys2Proof.Machine

/-! ### The command port -/

theorem raisesCerr_of_decode_error {w : Word} {e : DecodeError} (h : decode w = .error e) : RaisesCerr w := by
  intro s rest hin
  rw [step_command hin, runWord_error h]

/-- Settles O3, by the row of the opcode map that the word's OP selects, if any. -/
theorem reservedAndUndefinedWordsRaiseCerr : Obligations.ReservedAndUndefinedWordsRaiseCerr := by
  unfold Obligations.ReservedAndUndefinedWordsRaiseCerr
  intro op a b c
  refine ⟨fun hundef => ?undefined, fun hdef hset => ?reserved, fun hdef hc hb ha => ?command⟩
  case undefined =>
    have herr := decode_cmdWord_of_undefined hundef a b c
    exact ⟨herr, raisesCerr_of_decode_error herr⟩
  case reserved =>
    have hres : ¬ ReservedFieldsZero op a b c := by unfold ReservedFieldsZero; tauto
    have herr := decode_cmdWord_of_reserved hdef hres
    exact ⟨herr, raisesCerr_of_decode_error herr⟩
  case command => exact decode_cmdWord_of_reservedFieldsZero hdef ⟨hc, hb, ha⟩

end Sys2Proof.Machine

/-! The commands of the checksum unit: the words on the port, the entries of the table, and from them the statements
about BuildTable (41_checksum.md R53), CRCTAB and CRCEVAL (R57, R58) and CRCTX and CRCRX (R59, R60). -/

namespace Sys2Proof

/-- Each row of the opcode map reads the command's operands back from the fields of its word. -/
theorem decode_encode (i : Instr) : decode (encode i) = .ok i := by
  cases i <;> simp [encode, decode, withReservedZero_eq_ok]

end Sys2Proof

namespace Sys2Proof.Machine

/-! ### Words that raise CERR -/

theorem raisesCerr_of_reserved {op a b c : Byte} (hop : op.toNat ≤ 0x0C) (hres : ¬ ReservedFieldsZero op a b c) :
    RaisesCerr (cmdWord op a b c) :=
  raisesCerr_of_decode_error (decode_cmdWord_of_reserved hop hres)

/-- No command has an operand in field C. -/
theorem raisesCerr_of_c {op a b c : Byte} (hop : op.toNat ≤ 0x0C) (hc : c ≠ 0) : RaisesCerr (cmdWord op a b c) :=
  raisesCerr_of_reserved hop fun ⟨hc0, _⟩ => hc hc0

/-- A command other than TXWR, SEND and CRCEVAL has no operand in field B. -/
theorem raisesCerr_of_bc {op a b c : Byte} (hop : op.toNat ≤ 0x0C) (hnoB : ¬ (op = 0x01 ∨ op = 0x04 ∨ op = 0x08))
    (h : b ≠ 0 ∨ c ≠ 0) : RaisesCerr (cmdWord op a b c) :=
  raisesCerr_of_reserved hop fun ⟨hc0, hb0, _⟩ => h.elim (· (hb0.resolve_right hnoB)) (· hc0)

/-- A word whose command answers CERR in every state. -/
theorem raisesCerr_of_exec {w : Word} {i : Instr} (hdecode : decode w = .ok i)
    (hcerr : ∀ s, exec i s = .next { s with responses := s.responses ++ [0x00010000#32] }) : RaisesCerr w := by
  intro s rest hin
  rw [step_command hin, runWord_ok hdecode, hcerr]

/-- A command whose one operand, in field A, has a range: CERR outside the range, and CERR for a nonzero B or C. -/
theorem raisesCerr_of_outOfRange_or_bc {op a b c : Byte} {i : Instr} {outOfRange : Prop} (hop : op.toNat ≤ 0x0C)
    (hnoB : ¬ (op = 0x01 ∨ op = 0x04 ∨ op = 0x08)) (hdecode : decode (cmdWord op a 0 0) = .ok i)
    (hcerr : outOfRange → ∀ s, exec i s = .next { s with responses := s.responses ++ [0x00010000#32] })
    (h : outOfRange ∨ b ≠ 0 ∨ c ≠ 0) : RaisesCerr (cmdWord op a b c) := by
  by_cases hbc : b ≠ 0 ∨ c ≠ 0
  · exact raisesCerr_of_bc hop hnoB hbc
  · obtain ⟨rfl, rfl⟩ : b = 0 ∧ c = 0 := by tauto
    exact raisesCerr_of_exec hdecode (hcerr (h.resolve_right hbc))

/-! ### The entries of the table (41_checksum.md R53) -/

/-- The table step by its test of bit 7, as R53 writes it. -/
theorem tableStep_eq (poly c : Byte) :
    tableStep poly c = if c.getLsbD 7 = true then (c <<< 1) ^^^ poly else c <<< 1 := by
  rw [tableStep, BitVec.msb_eq_getLsbD_last]

theorem tableSteps_eq_iterate (poly : Byte) (n : Nat) (c : Byte) : tableSteps poly n c = (tableStep poly)^[n] c := by
  induction n generalizing c with
  | zero => rfl
  | succ n ih => rw [tableSteps, ih, Function.iterate_succ_apply]

/-- Settles O16, by the entry of the built table as an iterate of the table step. -/
theorem tableEntriesAreEightDivisionSteps : Obligations.TableEntriesAreEightDivisionSteps := by
  unfold Obligations.TableEntriesAreEightDivisionSteps
  intro poly i
  rw [buildTable_getElem, tableEntry, tableSteps_eq_iterate, funext (tableStep_eq poly)]

/-! ### CRCTAB and CRCEVAL (R57, R58) -/

theorem tableEntry_zero (poly : Byte) : tableEntry poly 0 = 0 := tableSteps_zero poly 8

theorem tableEntry_xor_self (poly a : Byte) : tableEntry poly (a ^^^ a) = 0 := by
  rw [BitVec.xor_self]
  exact tableEntry_zero poly

theorem tableStep_of_msb_clear {poly c : Byte} (h : c.msb = false) : tableStep poly c = c <<< 1 :=
  if_neg (Bool.not_eq_true _ ▸ h)

theorem tableStep_of_msb_set {poly c : Byte} (h : c.msb = true) : tableStep poly c = (c <<< 1) ^^^ poly := if_pos h

/-- Seven steps shift the seed's one bit up to bit 7, and the eighth replaces it by POLY. -/
theorem tableEntry_one (poly : Byte) : tableEntry poly 1 = poly := by
  have hshift : tableSteps poly 8 1 = tableSteps poly 1 0x80 := by
    iterate 7 rw [tableSteps, tableStep_of_msb_clear (by decide)]
    rfl
  have hreduce : tableStep poly 0x80 = 0#8 ^^^ poly := tableStep_of_msb_set (by decide)
  rw [tableEntry, hshift, tableSteps, hreduce, BitVec.zero_xor, tableSteps]

/-- CRCTAB on the table that reset builds. -/
theorem execCrctab_buildTable {s : State} (htable : s.ct = buildTable s.poly) (index : Byte) :
    execCrctab index s =
      .next { s with responses := s.responses ++ [BitVec.setWidth 32 (tableEntry s.poly index)] } := by
  simp only [execCrctab_eq, htable, buildTable_getElem]

/-- CRCEVAL on the table that reset builds. -/
theorem execCrceval_buildTable {s : State} (htable : s.ct = buildTable s.poly) (acc byte : Byte) :
    execCrceval acc byte s =
      .next { s with responses := s.responses ++ [BitVec.setWidth 32 (tableEntry s.poly (acc ^^^ byte))] } := by
  rw [execCrceval_eq, htable, evaluate_buildTable]

/-- Settles O18: the two commands' rules, and the entries of the built table at 0 and 1. -/
theorem crctabAndCrcevalAnswerTableEntries : Obligations.CrctabAndCrcevalAnswerTableEntries := by
  unfold Obligations.CrctabAndCrcevalAnswerTableEntries
  refine ⟨fun a b s => ⟨execCrctab_eq a s, execCrceval_eq a b s⟩, fun a s htable => ⟨?zero, ?one, ?same⟩,
    fun a b => ⟨decode_encode (.crctab a), decode_encode (.crceval a b)⟩,
    fun a b c => ⟨raisesCerr_of_bc (by decide) (by decide), raisesCerr_of_c (by decide)⟩⟩
  case zero =>
    rw [exec, execCrctab_buildTable htable, tableEntry_zero]
    rfl
  case one => rw [exec, execCrctab_buildTable htable, tableEntry_one]
  case same =>
    rw [exec, execCrceval_buildTable htable, tableEntry_xor_self]
    rfl

/-! ### CRCTX and CRCRX (R59, R60) -/

/-- The checksum of a buffer's first n bytes, as a fold over their addresses. -/
theorem checksumOf_bytes (ct : Vector Byte 256) (m : Memory) (n : Nat) :
    checksumOf ct (m.bytes n) = (List.range n).foldl (fun acc k => evaluate ct acc (m.read k)) 0x00 :=
  List.foldl_map

/-- CRCTX and CRCRX within the range of their length, on the buffer m. -/
theorem checksumCommand_fold (m : Memory) {len : Byte} (h : len.toNat ≤ 254) (s : State) :
    checksumCommand m len s = .next { s with responses := s.responses ++ [BitVec.setWidth 32
      ((List.range len.toNat).foldl (fun acc k => evaluate s.ct acc (m.read k)) 0x00)] } := by
  rw [checksumCommand_of_le m h, checksumOf_bytes]

/-- Settles O19: both commands are the one checksum command, on TXBUF and on RXBUF. -/
theorem crctxAndCrcrxFoldTheBuffers : Obligations.CrctxAndCrcrxFoldTheBuffers := by
  unfold Obligations.CrctxAndCrcrxFoldTheBuffers
  intro a
  have htx : decode (cmdWord 0x09 a 0 0) = .ok (.crctx a) := decode_encode (.crctx a)
  have hrx : decode (cmdWord 0x0A a 0 0) = .ok (.crcrx a) := decode_encode (.crcrx a)
  refine ⟨fun h s => ⟨checksumCommand_fold s.txbuf h s, checksumCommand_fold s.rxbuf h s⟩, htx, hrx,
    fun b c h => ⟨?tx, ?rx⟩⟩
  case tx =>
    have hcerr (hgt : 254 < a.toNat) (s : State) := checksumCommand_of_gt s.txbuf hgt s
    exact raisesCerr_of_outOfRange_or_bc (by decide) (by decide) htx hcerr h
  case rx =>
    have hcerr (hgt : 254 < a.toNat) (s : State) := checksumCommand_of_gt s.rxbuf hgt s
    exact raisesCerr_of_outOfRange_or_bc (by decide) (by decide) hrx hcerr h

end Sys2Proof.Machine

/-! OVH and LASTS (42_stuffing.md R67, R68) from what the scans for a sentinel find, and the walk of Destuff (R64), one
entry at a time. -/

namespace Sys2Proof.Machine

/-! ### ComputeOverhead and OVH (R61, R67) -/

/-- A sentinel index below a legal length fits one byte, so the response is the index itself. -/
theorem setWidth_ofNat_index {i n : Nat} (hn : n ≤ 254) (hi : i < n) :
    BitVec.setWidth 32 (BitVec.ofNat 8 i) = BitVec.ofNat 32 i :=
  BitVec.setWidth_ofNat_of_le_of_lt (by decide) (by omega)

theorem computeOverhead_of_first {m : Memory} {n i : Nat} (hn : n ≤ 254) (hi : i < n) (hs : m.read i = Config.START)
    (hfirst : ∀ j, j < i → m.read j ≠ Config.START) : computeOverhead m n = BitVec.ofNat 8 i := by
  have hscan : firstSentinel m 0 n = some i :=
    firstSentinel_eq_some.2 ⟨⟨Nat.zero_le i, by omega⟩, hs, fun j _ hj => hfirst j hj⟩
  rw [computeOverhead, if_neg (show ¬ n > Config.MAX_PAYLOAD from Nat.not_lt.2 hn), hscan]

theorem computeOverhead_of_none {m : Memory} {n : Nat} (h : 254 < n ∨ ∀ j, j < n → m.read j ≠ Config.START) :
    computeOverhead m n = 0xFF := by
  rcases h with hgt | hfree
  · exact computeOverhead_of_gt m hgt
  · have hscan : firstSentinel m 0 n = none := firstSentinel_eq_none.2 fun j _ hj => hfree j (by omega)
    rw [computeOverhead, hscan, ite_self]

/-- Settles O20, by what the upward scan finds. -/
theorem ovhAnswersTheFirstSentinel : Obligations.OvhAnswersTheFirstSentinel := by
  unfold Obligations.OvhAnswersTheFirstSentinel
  refine ⟨fun a s => ⟨fun i ha hi hs hfirst => ?first, fun h => ?none⟩, fun a => decode_encode (.ovh a),
    fun a b c => raisesCerr_of_bc (by decide) (by decide)⟩
  case first =>
    have hovh := computeOverhead_of_first ha hi hs hfirst
    exact ⟨hovh, by rw [exec, execOvh_eq, hovh, setWidth_ofNat_index ha hi]⟩
  case none =>
    have hovh := computeOverhead_of_none h
    refine ⟨hovh, ?_⟩
    rw [exec, execOvh_eq, hovh]
    rfl

/-! ### FindLastSentinel and LASTS (R62, R68) -/

theorem findLastSentinel_of_last {m : Memory} {n i : Nat} (hn : n ≤ 254) (hi : i < n) (hs : m.read i = Config.START)
    (hlast : ∀ j, i < j → j < n → m.read j ≠ Config.START) : findLastSentinel m n = some i := by
  rw [findLastSentinel, if_neg (show ¬ n > Config.MAX_PAYLOAD from Nat.not_lt.2 hn)]
  exact lastSentinelBelow_eq_some.2 ⟨hi, hs, hlast⟩

theorem findLastSentinel_of_none {m : Memory} {n : Nat} (h : 254 < n ∨ ∀ j, j < n → m.read j ≠ Config.START) :
    findLastSentinel m n = none := by
  rcases h with hgt | hfree
  · exact findLastSentinel_of_gt m hgt
  · rw [findLastSentinel, lastSentinelBelow_eq_none.2 hfree, ite_self]

/-- Settles O21, by what the downward scan finds. -/
theorem lastsAnswersTheLastSentinel : Obligations.LastsAnswersTheLastSentinel := by
  unfold Obligations.LastsAnswersTheLastSentinel
  refine ⟨fun a s => ⟨fun i ha hi hs hlast => ?last, fun h => ?none⟩, fun a => decode_encode (.lasts a),
    fun a b c => raisesCerr_of_bc (by decide) (by decide)⟩
  case last =>
    have hfind := findLastSentinel_of_last ha hi hs hlast
    exact ⟨hfind, by rw [exec, execLasts_of_some hfind, setWidth_ofNat_index ha hi]⟩
  case none =>
    have hfind := findLastSentinel_of_none h
    exact ⟨hfind, execLasts_of_none hfind⟩

/-! ### Destuff (R64) -/

/-- Destuff at a zero inside the buffer: the end of the chain. -/
theorem destuff_of_zero {m : Memory} {start : Byte} (hin : start.toNat < 254) (hz : m.read start.toNat = 0x00) :
    destuff m start = m.write start.toNat Config.START := by
  rw [destuff_eq_walk, destuffWalk_step m hin, if_pos hz]

/-- Destuff at a nonzero entry inside the buffer, which leads on to the index plus the entry. -/
theorem destuff_of_ne_zero {m : Memory} {start : Byte} (hin : start.toNat < 254) (hnz : m.read start.toNat ≠ 0x00) :
    destuff m start =
      destuffWalk 254 (start.toNat + (m.read start.toNat).toNat) (m.write start.toNat Config.START) := by
  rw [destuff_eq_walk, destuffWalk_step m hin, if_neg hnz]

/-- Settles O23: one entry of the walk, and where the entry leads. -/
theorem destuffWalksTheChain : Obligations.DestuffWalksTheChain := by
  unfold Obligations.DestuffWalksTheChain
  refine fun m start => ⟨fun hout => ?outside, destuff_of_zero, fun hin hnz hout => ?leaves, fun hin hnz hnext => ?goesOn⟩
  case outside => rw [destuff_eq_walk, destuffWalk_outside hout]
  case leaves => exact (destuff_of_ne_zero hin hnz).trans (destuffWalk_outside hout)
  case goesOn =>
    have hindex : (start + m.read start.toNat).toNat = start.toNat + (m.read start.toNat).toNat :=
      BitVec.toNat_add_of_lt (by omega)
    rw [destuff_of_ne_zero hin hnz, destuff_eq_walk, hindex]
    rfl

end Sys2Proof.Machine

/-! SEND (43_send.md R69): the frame from its payload, and the command as one record update. -/

namespace Sys2Proof.Machine

/-- The frame SEND builds, for a list that reads as the stuffed payload. -/
theorem State.sendFrame_of_payload {s : State} {len : Byte} {payload : List Byte}
    (hlen : payload.length = clampLen len)
    (hread : ∀ i, (h : i < payload.length) → payload[i] = (stuff s.txbuf (clampLen len)).read i) (id : Byte) :
    s.sendFrame len id = frameBytes id (computeOverhead s.txbuf (clampLen len)) (BitVec.ofNat 8 (clampLen len))
      payload (checksumOf s.ct payload) := by
  rw [State.sendFrame, Memory.bytes_eq hlen fun i h => (hread i h).symm]

/-- SEND stuffs TXBUF, takes the draw, and lets the draw decide what reaches TXQ and what is answered. The draw does
not depend on TXBUF. -/
theorem exec_send_eq (len id : Byte) (s : State) :
    exec (.send len id) s = .next { s with
      txbuf := stuff s.txbuf (clampLen len), txq := s.txq ++ s.nextWrite.reached (s.sendFrame len id)
      responses := s.responses ++ [BitVec.setWidth 32 s.nextWrite.val]
      writeResults := s.dropWrite.writeResults, draws := s.dropWrite.draws } := by
  rw [exec, execSend, State.transportWrite_eq]
  simp only [BitVec.ofNat_eq_ofNat, rspWord_val, State.dropWrite_writeResults, State.dropWrite_draws]
  rfl

/-- Settles O26, by the two answers of the transport. -/
theorem sendEmitsTheFrame : Obligations.SendEmitsTheFrame := by
  unfold Obligations.SendEmitsTheFrame
  refine ⟨?frame, fun len id => decode_encode (.send len id), fun len id c => raisesCerr_of_c (by decide)⟩
  case frame =>
    rintro len id s _ P F rfl hlen hread hF
    have hframe : s.sendFrame len id = F := (State.sendFrame_of_payload hlen hread id).trans hF.symm
    refine ⟨fun hok => ?whole, fun k hfailed => ?part⟩
    case whole =>
      rw [exec_send_eq, hok, hframe]
      rfl
    case part =>
      rw [exec_send_eq, hfailed, hframe]
      rfl

end Sys2Proof.Machine

/-! The receive path (44_receive.md): the rows of RxStep's table (R74 to R80), SERVICE one byte at a time (R72), and
its resynchronisation from code 7 of P_STATE (R82). -/

namespace Sys2Proof.Machine

/-! ### RxStep by its rows (R74 to R80) -/

/-- A payload byte inside RXBUF (R78). -/
theorem rxStep_of_findPayload {s : State} (hp : s.pState = .findPayload) (hin : s.pCur.toNat < 254) (b : Byte) :
    rxStep s b = .more { s with
      rxbuf := s.rxbuf.write s.pCur.toNat b, pCur := s.pCur + 1
      pState := if s.pCur + 1 = s.pLen then .findChecksum else .findPayload } := by
  simp only [rxStep, hp, rxFindPayload, if_pos (show s.pCur.toNat < Config.RX_CAP from hin)]

/-- The byte after a payload of legal length (R79). -/
theorem rxStep_of_findChecksum {s : State} (hp : s.pState = .findChecksum) (hlen : s.pLen.toNat ≤ 254) (b : Byte) :
    rxStep s b =
      if b = checksumOf s.ct (s.rxbuf.bytes s.pLen.toNat) then .more { s with pState := .findStop }
      else .term { s with pState := .findStart } .checksumError 0x00 := by
  simp only [rxStep, hp, rxFindChecksum, if_pos (show s.pLen.toNat ≤ Config.RX_CAP from hlen)]

/-- The cursor meets P_LEN as bytes where it does as numbers: it does not wrap below a legal length. -/
theorem pCur_succ_eq_pLen {s : State} (hlen : s.pLen.toNat ≤ 254) (hcur : s.pCur.toNat < s.pLen.toNat) :
    s.pCur + 1 = s.pLen ↔ s.pCur.toNat + 1 = s.pLen.toNat := by
  have hwrap : s.pCur.toNat + 1 < 2 ^ 8 := by omega
  have hsucc : (s.pCur + 1).toNat = s.pCur.toNat + 1 := BitVec.toNat_add_of_lt hwrap
  rw [← BitVec.toNat_inj, hsucc]

/-- Settles O31, row by row of the table. -/
theorem rxStepFollowsTheTable : Obligations.RxStepFollowsTheTable := by
  unfold Obligations.RxStepFollowsTheTable
  intro s b
  refine ⟨fun hp hb => ?start, fun hp hb => ?noise, fun hp => ?id, fun hp => ?overhead, fun hp h1 h2 => ?length,
    fun hp hb => ?badLength, fun hp hlen hcur => ?payload, fun hp hlen hcur => ?lastPayload,
    fun hp hlen hb => ?checksum, fun hp hlen hb => ?badChecksum, fun hp hb => ?stop, fun hp hb => ?badStop⟩
  case start => simp only [rxStep, hp, rxFindStart, if_pos (show b = Config.START from hb)]
  case noise => simp only [rxStep, hp, rxFindStart, if_neg (show b ≠ Config.START from hb)]
  case id => simp only [rxStep, hp, rxFindId]
  case overhead => simp only [rxStep, hp, rxFindOverhead]
  case length =>
    have hok : 1 ≤ b.toNat ∧ b.toNat ≤ Config.MAX_PAYLOAD := ⟨h1, h2⟩
    simp only [rxStep, hp, rxFindLength, if_pos hok]
  case badLength =>
    have hbad : ¬ (1 ≤ b.toNat ∧ b.toNat ≤ Config.MAX_PAYLOAD) := by
      rcases hb with rfl | rfl <;> decide
    simp only [rxStep, hp, rxFindLength, if_neg hbad]
  case payload =>
    have hne : ¬ s.pCur + 1 = s.pLen := mt (pCur_succ_eq_pLen hlen (by omega)).1 (by omega)
    rw [rxStep_of_findPayload hp (by omega), if_neg hne, ← hp]
  case lastPayload =>
    have hfull : s.pCur + 1 = s.pLen := (pCur_succ_eq_pLen hlen (by omega)).2 hcur
    rw [rxStep_of_findPayload hp (by omega), if_pos hfull, hfull]
  case checksum => rw [rxStep_of_findChecksum hp hlen, if_pos hb]
  case badChecksum => rw [rxStep_of_findChecksum hp hlen, if_neg hb]
  case stop => simp only [rxStep, hp, rxFindStop, if_pos (show b = Config.STOP from hb)]
  case badStop => simp only [rxStep, hp, rxFindStop, if_neg (show b ≠ Config.STOP from hb)]

/-! ### SERVICE, one byte at a time (R72) -/

/-- The state in a result, if it holds one, meets `P`. -/
def RxResult.Holds (P : State → Prop) : RxResult → Prop
  | .more s => P s
  | .term s _ _ => P s
  | .abort s => P s
  | .outside => True

/-- RxStep takes no byte from RXQ and gives no response. -/
theorem rxStep_keeps_ports (s : State) (b : Byte) :
    (rxStep s b).Holds fun s' => s'.rxq = s.rxq ∧ s'.responses = s.responses := by
  have hover : rxStep s b = (rxStep s b).over s := rxStep_over s s b
  rw [hover]
  cases rxStep s b with
  | more s' => exact ⟨rfl, rfl⟩
  | term s' t br => exact ⟨rfl, rfl⟩
  | abort s' => exact ⟨rfl, rfl⟩
  | outside => trivial

/-- The end of a SERVICE as one record update. -/
theorem State.finishService_eq (s : State) (t : Status) (br : Byte) :
    s.finishService t br = { s with
      status := t, bytesRead := br
      responses := s.responses ++ [(BitVec.setWidth 32 t.code <<< 8) ||| BitVec.setWidth 32 br] } := by
  rw [← rspWord_service]
  rfl

section HeadByte

variable {s s' : State} {b : Byte} {q : List Byte} (hq : s.rxq = b :: q)
include hq

/-- A head byte that ends the call. -/
theorem exec_service_of_ne_more (h : ∀ s', rxStep { s with rxq := q } b ≠ .more s') :
    exec .service s = (rxStep { s with rxq := q } b).finish := by
  rw [exec, execService_eq_run (by simp [hq]), hq, rxRun_cons_of_ne h]

/-- A head byte that is the last one, and after which the parser goes on. -/
theorem exec_service_of_more_last (h : rxStep { s with rxq := q } b = .more s') (hlast : q = []) :
    exec .service s = .next (s'.finishService .continuing 0x00) := by
  subst hlast
  rw [exec, execService_eq_run (by simp [hq]), hq, rxRun_cons_more h]
  rfl

/-- A head byte after which SERVICE goes on with the bytes left. -/
theorem exec_service_of_more (h : rxStep { s with rxq := q } b = .more s') (hne : q ≠ []) (hs' : s'.rxq = q) :
    exec .service s = exec .service s' := by
  rw [exec, exec, execService_eq_run (by simp [hq]), hq, rxRun_cons_more h, execService_eq_run (hs' ▸ hne), hs']

/-- A head byte in code 7 of P_STATE (R82). -/
theorem exec_service_of_abort (h : rxStep { s with rxq := q } b = .abort s') :
    exec .service s = .next { s' with
      status := .continuing, bytesRead := 0x00, responses := s'.responses ++ [0x00000300#32] } := by
  rw [exec_service_of_ne_more hq (by simp [h]), h, RxResult.finish, State.finishService_eq]
  rfl

end HeadByte

/-- Settles O32, by what RxStep answers on the head byte. -/
theorem serviceTakesTheBytesInTurn : Obligations.ServiceTakesTheBytesInTurn := by
  unfold Obligations.ServiceTakesTheBytesInTurn
  refine ⟨fun s hempty => ?noData, fun s b q hq => ?headByte, decode_encode .service, fun a b c h => ?cerr⟩
  case noData =>
    rw [exec, execService_empty hempty, State.finishService_eq]
    rfl
  case headByte =>
    have hports := rxStep_keeps_ports { s with rxq := q } b
    refine ⟨fun s' h hlast => ?last, fun s' h hne => ?goesOn, fun s' t br h => ?outcome, fun s' h => ?abort⟩ <;>
      rw [h] at hports <;> obtain ⟨hrxq, hresp⟩ := hports
    case last =>
      rw [exec_service_of_more_last hq h hlast, State.finishService_eq, hresp]
      rfl
    case goesOn => exact ⟨hrxq, exec_service_of_more hq h hne hrxq⟩
    case outcome =>
      refine ⟨hrxq, ?_⟩
      rw [exec_service_of_ne_more hq (by simp [h]), h, RxResult.finish, State.finishService_eq, hresp]
    case abort =>
      refine ⟨hrxq, ?_⟩
      rw [exec_service_of_abort hq h, hresp]
  case cerr =>
    refine raisesCerr_of_reserved (by decide) fun ⟨hc, hb, ha⟩ => ?_
    have hb0 : b = 0 := hb.resolve_right (by decide)
    have ha0 : a = 0 := ha.resolve_right (by decide)
    exact h.elim (· ha0) (·.elim (· hb0) (· hc))

/-- Settles O35: in code 7 RxStep aborts on any byte. -/
theorem undefinedParserStateResynchronises : Obligations.UndefinedParserStateResynchronises := by
  unfold Obligations.UndefinedParserStateResynchronises
  intro s b q hp hq
  have habort : rxStep { s with rxq := q } b = .abort { s with rxq := q, ups := true, pState := .findStart } := by
    simp only [rxStep, hp, rxUndefined]
  exact exec_service_of_abort hq habort

end Sys2Proof.Machine

/-! The byte accesses of the marshalling boundary: the rule of TXWR within its range, and from it and the reading
command's rules the statements about TXWR, TXRD and RXRD (45_buffer_access.md R86 to R88). -/

namespace Sys2Proof.Machine

theorem execTxwr_of_le {a : Byte} (h : a.toNat ≤ 253) (d : Byte) (s : State) :
    execTxwr a d s =
      .next { s with txbuf := s.txbuf.write a.toNat d, responses := s.responses ++ [0x00000000#32] } := by
  rw [execTxwr, bufAddr_of_le h]
  exact congrArg Host.Outcome.next ({ s with txbuf := s.txbuf.write a.toNat d }.respond_eq 0x00)

/-- Settles O12: a read of TXBUF after the write, and the two ways to CERR. -/
theorem txwrWritesOneByteOrRaisesCerr : Obligations.TxwrWritesOneByteOrRaisesCerr := by
  unfold Obligations.TxwrWritesOneByteOrRaisesCerr
  intro a d
  have hdecode : decode (cmdWord 0x01 a d 0) = .ok (.txwr a d) := decode_encode (.txwr a d)
  refine ⟨fun h s => ⟨_, execTxwr_of_le h d s, ?same, fun x hx => ?other, rfl⟩, hdecode, fun c h => ?cerr⟩
  case same => exact Memory.read_write_same _ _ _
  case other => exact Memory.read_write_other _ _ _ _ hx
  case cerr =>
    by_cases hc : c = 0
    · subst hc
      have hgt : 253 < a.toNat := h.resolve_right (not_not_intro rfl)
      exact raisesCerr_of_exec hdecode (execTxwr_of_gt hgt d)
    · exact raisesCerr_of_c (by decide) hc

/-- Settles O13: TXRD is the reading command on TXBUF. -/
theorem txrdAnswersTheByteOrRaisesCerr : Obligations.TxrdAnswersTheByteOrRaisesCerr := by
  unfold Obligations.TxrdAnswersTheByteOrRaisesCerr
  intro a
  have hdecode : decode (cmdWord 0x02 a 0 0) = .ok (.txrd a) := decode_encode (.txrd a)
  have hcerr (hgt : 253 < a.toNat) (s : State) := readCommand_of_gt s.txbuf hgt s
  exact ⟨fun h s => readCommand_of_le s.txbuf h s, hdecode,
    fun _ _ => raisesCerr_of_outOfRange_or_bc (by decide) (by decide) hdecode hcerr⟩

/-- Settles O14: RXRD is the reading command on RXBUF. -/
theorem rxrdAnswersTheByteOrRaisesCerr : Obligations.RxrdAnswersTheByteOrRaisesCerr := by
  unfold Obligations.RxrdAnswersTheByteOrRaisesCerr
  intro a
  have hdecode : decode (cmdWord 0x03 a 0 0) = .ok (.rxrd a) := decode_encode (.rxrd a)
  have hcerr (hgt : 253 < a.toNat) (s : State) := readCommand_of_gt s.rxbuf hgt s
  exact ⟨fun h s => readCommand_of_le s.rxbuf h s, hdecode,
    fun _ _ => raisesCerr_of_outOfRange_or_bc (by decide) (by decide) hdecode hcerr⟩

end Sys2Proof.Machine

/-! The control commands: the rule of NOP and the words without an operand, and from them and RDREG's rules the
statements about NOP and RDREG (46_control.md R89, R90). -/

namespace Sys2Proof.Machine

/-- NOP and SERVICE have no operand in any field. -/
theorem raisesCerr_of_abc {op a b c : Byte} (hnoA : op = 0x00 ∨ op = 0x05) (h : a ≠ 0 ∨ b ≠ 0 ∨ c ≠ 0) :
    RaisesCerr (cmdWord op a b c) := by
  have hop : op.toNat ≤ 0x0C := by rcases hnoA with rfl | rfl <;> decide
  have hnoB : ¬ (op = 0x01 ∨ op = 0x04 ∨ op = 0x08) := by rcases hnoA with rfl | rfl <;> decide
  rcases h with ha | hbc
  · exact raisesCerr_of_reserved hop fun ⟨_, _, ha0⟩ => (ha0.resolve_left ha).elim hnoA.elim
  · exact raisesCerr_of_bc hop hnoB hbc

theorem execNop_eq (s : State) : execNop s = .next { s with responses := s.responses ++ [0x00000000#32] } :=
  congrArg Host.Outcome.next (s.respond_eq 0x00)

/-- Settles O11: NOP's rule, its word, and the fields that are all reserved. -/
theorem nopChangesNothing : Obligations.NopChangesNothing := by
  unfold Obligations.NopChangesNothing
  exact ⟨execNop_eq, decode_encode .nop, fun _ _ _ => raisesCerr_of_abc (.inl rfl)⟩

/-- Settles O15: each selector of R51 selects the register that holds v. -/
theorem rdregAnswersTheSelectedRegister : Obligations.RdregAnswersTheSelectedRegister := by
  unfold Obligations.RdregAnswersTheSelectedRegister
  have hdecode (sel : Byte) : decode (cmdWord 0x06 sel 0 0) = .ok (.rdreg sel) := decode_encode (.rdreg sel)
  refine ⟨fun s v sel h => ?answer, hdecode, fun sel b c => ?cerr⟩
  case answer =>
    have hselected : ∃ r, selectReg sel = some r ∧ v = s.readReg r := by
      rcases h with ⟨rfl, hv⟩ | ⟨rfl, hv⟩ | ⟨rfl, hv⟩ | ⟨rfl, hv⟩ | ⟨rfl, hv⟩ | ⟨rfl, hv⟩ | ⟨rfl, hv⟩ | ⟨rfl, hv⟩ |
        ⟨rfl, hv⟩
      exacts [⟨.status, rfl, hv⟩, ⟨.bytesRead, rfl, hv⟩, ⟨.pId, rfl, hv⟩, ⟨.pOvh, rfl, hv⟩, ⟨.pLen, rfl, hv⟩,
        ⟨.pCur, rfl, hv⟩, ⟨.pState, rfl, hv⟩, ⟨.fault, rfl, hv⟩, ⟨.poly, rfl, hv⟩]
    obtain ⟨r, hsel, rfl⟩ := hselected
    exact execRdreg_of_some hsel s
  case cerr =>
    have hcerr (hgt : 8 < sel.toNat) (s : State) := execRdreg_of_none (selectReg_of_gt hgt) s
    exact raisesCerr_of_outOfRange_or_bc (by decide) (by decide) (hdecode sel) hcerr

end Sys2Proof.Machine

/-! CERR (60_exceptions.md R93): what a word on the command port gives is `raise CERR`, or a response without CERR. -/

namespace Sys2Proof.Machine

/-- A command that answers raises CERR and does nothing else, or gives one response without CERR. -/
theorem exec_raisesCerr_or_answers {i : Instr} {s t : State} (h : exec i s = .next t) :
    t = s.raiseCerr ∨ ∃ sts val, t.responses = s.responses ++ [rspWord false sts val] := by
  rcases exec_cases i s with ⟨c, v, _, hv, he⟩ | ⟨a, d, _, he⟩ | ⟨a, d, _, _, he⟩ | ⟨len, id, _, he⟩ | rfl
  · obtain rfl := Host.Outcome.next.inj (he.symm.trans h)
    cases c with
    | false => exact .inr ⟨_, _, rfl⟩
    | true =>
      obtain rfl := hv rfl
      exact .inl rfl
  · exact .inl (Host.Outcome.next.inj (he.symm.trans h)).symm
  · obtain rfl := Host.Outcome.next.inj (he.symm.trans h)
    exact .inr ⟨_, _, rfl⟩
  · obtain rfl := Host.Outcome.next.inj (he.symm.trans h)
    exact .inr ⟨_, _, State.transportWrite_responses _ _⟩
  · obtain ⟨s', st, br, rfl, hover, _⟩ := execService_cases h
    have hkept : s'.responses = s.responses := by rw [hover]; rfl
    exact .inr ⟨st.code, br, by rw [State.finishService_responses, hkept]⟩

/-- The same of any word on the command port: one that is no command raises CERR. -/
theorem runWord_raisesCerr_or_answers {w : Word} {s t : State} (h : runWord w s = .next t) :
    t = s.raiseCerr ∨ ∃ sts val, t.responses = s.responses ++ [rspWord false sts val] := by
  cases hd : decode w with
  | ok i => exact exec_raisesCerr_or_answers ((runWord_ok hd s).symm.trans h)
  | error e =>
    rw [runWord_error hd, ← State.raiseCerr_eq] at h
    exact .inl (Host.Outcome.next.inj h).symm

/-- Settles O9: a response with the CERR bit set is not one of those without CERR, so the word raised CERR. -/
theorem cerrChangesNoState : Obligations.CerrChangesNoState := by
  unfold Obligations.CerrChangesNoState
  intro s t w r rest hin hstep hresp hcerr
  rw [step_command hin] at hstep
  rcases runWord_raisesCerr_or_answers hstep with rfl | ⟨sts, val, hanswer⟩
  · rw [State.raiseCerr_eq] at hresp ⊢
    have hr : [0x00010000#32] = [r] := List.append_cancel_left hresp
    exact ⟨(List.singleton_inj.1 hr).symm, rfl⟩
  · have hr : [r] = [rspWord false sts val] := List.append_cancel_left (hresp.symm.trans hanswer)
    rw [List.singleton_inj.1 hr, rspWord_cerrBit] at hcerr
    exact absurd hcerr Bool.false_ne_true

end Sys2Proof.Machine

/-! The round trip of the command words: the decoder and the encoder undo each other, on every command and on every
legal word (30_encoding.md R45, R47, R48). -/

namespace Sys2Proof

/-- A word that decodes holds its command's OP and operands, and 0 in every other field. -/
theorem encode_of_decode {op a b c : Byte} {i : Instr} (h : decode (cmdWord op a b c) = .ok i) :
    encode i = cmdWord op a b c := by
  have hcode : op = BitVec.ofNat 8 op.toNat := by simp
  unfold decode at h
  rw [opField_cmdWord] at h
  split at h
  case h_14 => nomatch h
  all_goals
    rename_i hop
    obtain ⟨hreserved, rfl⟩ := withReservedZero_eq_ok.1 h
    rw [hop] at hcode
    subst hcode
    simp at hreserved
    simp [encode, hreserved]

end Sys2Proof

namespace Sys2Proof.Machine

/-- Settles O1, command by command. -/
theorem decodeOfEncodeIsTheCommand : Obligations.DecodeOfEncodeIsTheCommand := by
  unfold Obligations.DecodeOfEncodeIsTheCommand
  exact decode_encode

/-- Settles O2: a word is its four fields. -/
theorem encodeOfDecodeIsTheWord : Obligations.EncodeOfDecodeIsTheWord := by
  unfold Obligations.EncodeOfDecodeIsTheWord
  intro w i h
  rw [← cmdWord_fields w] at h ⊢
  exact encode_of_decode h

/-- Settles O4: the words are those of their commands. -/
theorem writtenOutWordsDecode : Obligations.WrittenOutWordsDecode := by
  unfold Obligations.WrittenOutWordsDecode
  exact ⟨decode_encode .nop, decode_encode (.txwr 253 0x7E), decode_encode (.txrd 3), decode_encode (.rxrd 4),
    decode_encode (.send 5 0x7E), decode_encode .service, decode_encode (.rdreg 8), decode_encode (.crctab 0x7E),
    decode_encode (.crceval 0x9B 0x02), decode_encode (.crctx 254), decode_encode (.crcrx 5),
    decode_encode (.ovh 255), decode_encode (.lasts 5)⟩

end Sys2Proof.Machine

/-! The canonical form of a buffer decides its data: one list for each content (20_memory.md R28). -/

namespace Sys2Proof.Machine

/-- A canonical list above lo that reads as unlisted from lo on is empty. -/
theorem Memory.eq_nil_of_reads {lo : Nat} {m : Memory} (h : Memory.wfFrom lo m = true)
    (hread : ∀ a, lo ≤ a → m.read a = Config.UNLISTED) : m = [] := by
  cases m with
  | nil => rfl
  | cons c m =>
    obtain ⟨x, v⟩ := c
    obtain ⟨hlo, _, hv, _⟩ := (Memory.wfFrom_cons ..).1 h
    have hx := hread x hlo
    rw [Memory.read_cons, if_pos rfl] at hx
    exact absurd hx hv

/-- The tail of a canonical list reads as the list does, above the head's address. -/
theorem Memory.read_tail {x : Nat} {v : Byte} {m : Memory} {a : Nat} (h : x + 1 ≤ a) :
    m.read a = Memory.read ((x, v) :: m) a := by
  rw [Memory.read_cons, if_neg (by omega)]

/-- The head of a canonical list is the lowest address that reads as a listed byte, so a list that reads alike does not
begin above it. -/
theorem Memory.head_le_of_reads {x y : Nat} {v w : Byte} {lo lo' : Nat} {m m' : Memory}
    (h : Memory.wfFrom lo ((x, v) :: m) = true) (h' : Memory.wfFrom lo' ((y, w) :: m') = true)
    (hread : Memory.read ((x, v) :: m) x = Memory.read ((y, w) :: m') x) : y ≤ x := by
  obtain ⟨_, _, hv, _⟩ := (Memory.wfFrom_cons ..).1 h
  obtain ⟨_, hy, hw, hm'⟩ := (Memory.wfFrom_cons ..).1 h'
  by_contra hlt
  have hbelow := Memory.read_below ((Memory.wfFrom_cons y y w m').2 ⟨Nat.le_refl y, hy, hw, hm'⟩) (Nat.lt_of_not_le hlt)
  rw [hbelow, Memory.read_cons, if_pos rfl] at hread
  exact hv hread

/-- Two canonical lists above lo that read alike from lo on are equal. -/
theorem Memory.eq_of_reads {lo : Nat} {m m' : Memory} (h : Memory.wfFrom lo m = true)
    (h' : Memory.wfFrom lo m' = true) (hread : ∀ a, lo ≤ a → m.read a = m'.read a) : m = m' := by
  induction m generalizing lo m' with
  | nil => exact (Memory.eq_nil_of_reads h' fun a ha => (hread a ha).symm).symm
  | cons c m ih =>
    obtain ⟨x, v⟩ := c
    cases m' with
    | nil => exact Memory.eq_nil_of_reads h hread
    | cons d m' =>
      obtain ⟨y, w⟩ := d
      obtain ⟨hlox, _, _, hm⟩ := (Memory.wfFrom_cons ..).1 h
      obtain ⟨hloy, _, _, hm'⟩ := (Memory.wfFrom_cons ..).1 h'
      obtain rfl : x = y := Nat.le_antisymm (Memory.head_le_of_reads h' h (hread y hloy).symm)
        (Memory.head_le_of_reads h h' (hread x hlox))
      have hhead : v = w := by simpa [Memory.read_cons] using hread x hlox
      have htail : m = m' := ih hm hm' fun a ha =>
        (Memory.read_tail ha).trans ((hread a (by omega)).trans (Memory.read_tail ha).symm)
      rw [hhead, htail]

/-- Two canonical buffers that read alike everywhere are equal. -/
theorem Memory.wf_ext {m m' : Memory} (h : m.wf = true) (h' : m'.wf = true) (hread : ∀ a, m.read a = m'.read a) :
    m = m' :=
  Memory.eq_of_reads h h' fun a _ => hread a

/-- Settles O51: above the capacity a canonical buffer reads as unlisted. -/
theorem canonicalBuffersThatReadAlikeAreEqual : Obligations.CanonicalBuffersThatReadAlikeAreEqual := by
  unfold Obligations.CanonicalBuffersThatReadAlikeAreEqual
  intro m m' h h' hread
  refine Memory.wf_ext h h' fun a => ?_
  rcases Nat.lt_or_ge a 254 with hin | hout
  · exact hread a hin
  · rw [Memory.read_above h hout, Memory.read_above h' hout]

end Sys2Proof.Machine

/-! The stuffer: what Stuff leaves at each index, the round trip through Destuff, and where a stuffed payload holds the
sentinel (42_stuffing.md R63, R65, R66). -/

namespace Sys2Proof.Machine

/-! ### Stuff, index by index (R63) -/

theorem stuff_read_of_ge (m : Memory) {n i : Nat} (hn : n ≤ 254) (hi : n ≤ i) : (stuff m n).read i = m.read i := by
  rw [stuff_read m n i hn, if_neg (by omega)]

theorem stuff_read_of_ne (m : Memory) {n i : Nat} (hn : n ≤ 254) (hs : m.read i ≠ Config.START) :
    (stuff m n).read i = m.read i := by
  rw [stuff_read m n i hn, if_neg fun c => hs c.2]

/-- The last sentinel ends the chain. -/
theorem stuff_read_of_last {m : Memory} {n i : Nat} (hn : n ≤ 254) (hi : i < n) (hs : m.read i = Config.START)
    (hlast : ∀ j, i < j → j < n → m.read j ≠ Config.START) : (stuff m n).read i = 0x00 := by
  have hnone : firstSentinel m (i + 1) (n - (i + 1)) = none :=
    firstSentinel_eq_none.2 fun j hij hj => hlast j hij (by omega)
  rw [stuff_read m n i hn, if_pos ⟨hi, hs⟩, hnone]

/-- Every other sentinel leads to the next one. -/
theorem stuff_read_of_next {m : Memory} {n i j : Nat} (hn : n ≤ 254) (hij : i < j) (hj : j < n)
    (hs : m.read i = Config.START) (hs' : m.read j = Config.START)
    (hbetween : ∀ k, i < k → k < j → m.read k ≠ Config.START) : (stuff m n).read i = BitVec.ofNat 8 (j - i) := by
  have hsome : firstSentinel m (i + 1) (n - (i + 1)) = some j :=
    firstSentinel_eq_some.2 ⟨⟨hij, by omega⟩, hs', hbetween⟩
  rw [stuff_read m n i hn, if_pos ⟨by omega, hs⟩, hsome]

theorem stuff_of_noSentinel {m : Memory} {n : Nat} (hfree : ∀ i, i < n → m.read i ≠ Config.START) : stuff m n = m := by
  rw [stuff, findLastSentinel_of_none (.inr hfree)]

/-- Of a sentinel below n, either it is the last below n or there is a next one. -/
theorem last_or_next_sentinel (m : Memory) (n i : Nat) :
    (∀ j, i < j → j < n → m.read j ≠ Config.START) ∨
    ∃ j, i < j ∧ j < n ∧ m.read j = Config.START ∧ ∀ k, i < k → k < j → m.read k ≠ Config.START := by
  cases hscan : firstSentinel m (i + 1) (n - (i + 1)) with
  | none => exact .inl fun j hij hj => firstSentinel_eq_none.1 hscan j hij (by omega)
  | some j =>
    obtain ⟨⟨hij, hj⟩, hs, hbetween⟩ := firstSentinel_eq_some.1 hscan
    exact .inr ⟨j, hij, by omega, hs, hbetween⟩

/-- Either no byte below n is a sentinel or there is a first one. -/
theorem none_or_first_sentinel (m : Memory) (n : Nat) :
    (∀ i, i < n → m.read i ≠ Config.START) ∨
    ∃ i, i < n ∧ m.read i = Config.START ∧ ∀ j, j < i → m.read j ≠ Config.START := by
  cases hscan : firstSentinel m 0 n with
  | none => exact .inl fun i hi => firstSentinel_eq_none.1 hscan i (Nat.zero_le i) (by omega)
  | some i =>
    obtain ⟨⟨_, hi⟩, hs, hfirst⟩ := firstSentinel_eq_some.1 hscan
    exact .inr ⟨i, by omega, hs, fun j hj => hfirst j (Nat.zero_le j) hj⟩

/-- Settles O22, by the four cases of an index. -/
theorem stuffChainsTheSentinels : Obligations.StuffChainsTheSentinels := by
  unfold Obligations.StuffChainsTheSentinels
  refine fun m n hn => ⟨fun i hi => stuff_read_of_ge m hn hi, fun i _ hs => stuff_read_of_ne m hn hs,
    fun i hi hs hlast => stuff_read_of_last hn hi hs hlast, fun i j hij hj hs hs' hbetween => ?next⟩
  case next =>
    rw [stuff_read_of_next hn hij hj hs hs' hbetween, BitVec.toNat_ofNat]
    omega

/-! ### Destuff undoes Stuff (R65) -/

/-- The buffer half way through the walk of Destuff: below i it holds the payload, from i to n the stuffed payload, and
above n anything. -/
def HalfDestuffed (m w : Memory) (n i : Nat) : Prop :=
  ∀ x, x < n → w.read x = if x < i then m.read x else (stuff m n).read x

/-- One entry of the walk: a sentinel put back at i makes the buffer read as the payload up to the next sentinel. -/
theorem HalfDestuffed.write {m w : Memory} {n i j : Nat} (h : HalfDestuffed m w n i) (hn : n ≤ 254) (hij : i < j)
    (hs : m.read i = Config.START) (hbetween : ∀ k, i < k → k < j → m.read k ≠ Config.START) :
    HalfDestuffed m (w.write i Config.START) n j := by
  intro x hx
  rcases Nat.lt_trichotomy x i with hlt | rfl | hgt
  · rw [Memory.read_write_other _ _ _ _ (by omega), h x hx, if_pos hlt, if_pos (by omega)]
  · rw [Memory.read_write_same, if_pos hij, hs]
  · rw [Memory.read_write_other _ _ _ _ (by omega), h x hx, if_neg (by omega)]
    split
    · exact stuff_read_of_ne m hn (hbetween x hgt ‹_›)
    · rfl

/-- The walk of Destuff from a sentinel of the payload puts the rest of the payload back, and writes nothing else. -/
theorem destuffWalk_read {m w : Memory} {n i : Nat} (hn : n ≤ 254) (hi : i < n) (hs : m.read i = Config.START)
    (h : HalfDestuffed m w n i) (x : Nat) :
    (destuffWalk 254 i w).read x = if x < n then m.read x else w.read x := by
  have hentry : w.read i = (stuff m n).read i := (h i hi).trans (if_neg (Nat.lt_irrefl i))
  have habove : ¬ x < n → (w.write i Config.START).read x = w.read x :=
    fun hx => Memory.read_write_other _ _ _ _ (by omega)
  rw [destuffWalk_step w (by omega), hentry]
  rcases last_or_next_sentinel m n i with hlast | ⟨j, hij, hj, hs', hbetween⟩
  · rw [if_pos (stuff_read_of_last hn hi hs hlast)]
    split
    · rw [h.write hn hi hs hlast x ‹_›, if_pos ‹_›]
    · exact habove ‹_›
  · have hnext := stuff_read_of_next hn hij hj hs hs' hbetween
    have hdistance : ((stuff m n).read i).toNat = j - i := by rw [hnext, BitVec.toNat_ofNat]; omega
    have hne : (stuff m n).read i ≠ 0x00 := fun c => by rw [c] at hdistance; simp at hdistance; omega
    have hindex : i + ((stuff m n).read i).toNat = j := by omega
    rw [if_neg hne, hindex, destuffWalk_read hn hj hs' (h.write hn hij hs hbetween) x]
    split
    · rfl
    · exact habove ‹_›
termination_by n - i

/-- A buffer that holds a stuffed payload below n, destuffed from the payload's overhead byte, holds the payload. -/
theorem destuff_read_of_stuffed {m w : Memory} {n : Nat} (hn : n ≤ 254)
    (h : ∀ x, x < n → w.read x = (stuff m n).read x) (x : Nat) :
    (destuff w (computeOverhead m n)).read x = if x < n then m.read x else w.read x := by
  rcases none_or_first_sentinel m n with hfree | ⟨i, hi, hs, hfirst⟩
  · rw [computeOverhead_of_none (.inr hfree), destuff_eq_walk, destuffWalk_outside (by decide)]
    split
    · rw [h x ‹_›, stuff_of_noSentinel hfree]
    · rfl
  · have hindex : (BitVec.ofNat 8 i).toNat = i := by rw [BitVec.toNat_ofNat]; omega
    rw [computeOverhead_of_first hn hi hs hfirst, destuff_eq_walk, hindex]
    refine destuffWalk_read hn hi hs (fun y hy => ?_) x
    rw [h y hy]
    split
    · exact stuff_read_of_ne m hn (hfirst y ‹_›)
    · rfl

theorem destuff_stuff_read (m : Memory) {n : Nat} (hn : n ≤ 254) (x : Nat) :
    (destuff (stuff m n) (computeOverhead m n)).read x = m.read x := by
  rw [destuff_read_of_stuffed hn fun _ _ => rfl]
  split
  · rfl
  · exact stuff_read_of_ge m hn (by omega)

/-- Settles O24: the walk puts every byte back, and a canonical buffer is decided by its bytes. -/
theorem destuffUndoesStuff : Obligations.DestuffUndoesStuff := by
  unfold Obligations.DestuffUndoesStuff
  intro m n hn
  exact ⟨destuff_stuff_read m hn,
    fun hwf => Memory.wf_ext (destuff_wf _ (stuff_wf n hn hwf)) hwf (destuff_stuff_read m hn)⟩

/-! ### Where a stuffed payload holds the sentinel (R66) -/

/-- A distance between two indices below a legal length is the sentinel, as a byte, where it is 126. -/
theorem ofNat_distance_eq_start {d : Nat} (hd : d < 254) : BitVec.ofNat 8 d = Config.START ↔ d = 126 := by
  rw [← BitVec.toNat_inj, BitVec.toNat_ofNat, Nat.mod_eq_of_lt (by omega)]
  rfl

/-- A stuffed payload holds the sentinel at a sentinel of the payload whose next sentinel is 126 further. -/
theorem stuff_read_eq_start {m : Memory} {n i : Nat} (hn : n ≤ 254) (hi : i < n) :
    (stuff m n).read i = Config.START ↔ m.read i = Config.START ∧ i + 126 < n ∧ m.read (i + 126) = Config.START ∧
      ∀ k, i < k → k < i + 126 → m.read k ≠ Config.START := by
  by_cases hs : m.read i = Config.START
  · rcases last_or_next_sentinel m n i with hlast | ⟨j, hij, hj, hs', hbetween⟩
    · rw [stuff_read_of_last hn hi hs hlast]
      refine ⟨nofun, fun ⟨_, hin, hs', _⟩ => absurd hs' (hlast _ (by omega) hin)⟩
    · rw [stuff_read_of_next hn hij hj hs hs' hbetween, ofNat_distance_eq_start (by omega)]
      constructor
      · intro hd
        obtain rfl : j = i + 126 := by omega
        exact ⟨hs, hj, hs', hbetween⟩
      · rintro ⟨_, _, hs'', hbetween'⟩
        have hle : j ≤ i + 126 := Nat.le_of_not_lt fun c => hbetween (i + 126) (by omega) c hs''
        have hge : i + 126 ≤ j := Nat.le_of_not_lt fun c => hbetween' j hij c hs'
        omega
  · rw [stuff_read_of_ne m hn hs]
    exact ⟨fun c => absurd c hs, fun c => absurd c.1 hs⟩

/-- Two sentinels 129 apart: the first is stuffed to 0x81, the last to 0x00. -/
theorem stuffed_holds_stop_and_zero :
    ∃ m : Memory, m.wf = true ∧ (stuff m 130).read 0 = 0x81 ∧ (stuff m 130).read 129 = 0x00 := by
  refine ⟨[(0, Config.START), (129, Config.START)], rfl, ?stop, ?zero⟩
  case stop =>
    refine stuff_read_of_next (j := 129) (by decide) (by decide) (by decide) rfl rfl fun k hk hk' => ?_
    rw [Memory.read_cons, if_neg (by omega), Memory.read_cons, if_neg (by omega), Memory.read_nil]
    decide
  case zero => exact stuff_read_of_last (by decide) (by decide) rfl fun j hj hj' => by omega

/-- Settles O25: Stuff index by index, and a buffer with its two sentinels 129 apart. -/
theorem stuffedPayloadCanHoldTheSentinel : Obligations.StuffedPayloadCanHoldTheSentinel := by
  unfold Obligations.StuffedPayloadCanHoldTheSentinel
  refine ⟨fun m n hn => ⟨fun i hi => stuff_read_of_ge m hn hi, fun i hi => stuff_read_eq_start hn hi,
    fun hfree => ⟨stuff_of_noSentinel hfree, computeOverhead_of_none (.inr hfree)⟩, fun i hchanged => ⟨?_, ?_⟩⟩,
    stuffed_holds_stop_and_zero⟩
  · by_contra hout
    exact hchanged (stuff_read_of_ge _ hn (Nat.le_of_not_lt hout))
  · by_contra hs
    exact hchanged (stuff_read_of_ne _ hn hs)

end Sys2Proof.Machine

/-! What a command leaves unchanged, by the four shapes a command that answers has: the write column of 10_state.md
R27, the order of the queues (20_memory.md R36) and the one response (30_encoding.md R46). -/

namespace Sys2Proof.Machine

/-! ### The shapes of a command that answers -/

/-- A command that answers gives one response and does no more, or is a TXWR that writes its byte, SEND or SERVICE. -/
theorem exec_next_cases {i : Instr} {s t : State} (h : exec i s = .next t) :
    ((∃ c v, t = s.answer (rspWord c 0#8 v)) ∧ (∀ len id, i ≠ .send len id) ∧ i ≠ .service) ∨
    (∃ a d, i = .txwr a d ∧ a.toNat < 254 ∧
      t = { s with txbuf := s.txbuf.write a.toNat d }.answer (rspWord false 0#8 0#8)) ∨
    (∃ len id, i = .send len id ∧
      t = { s with txbuf := stuff s.txbuf (clampLen len) }.transportWrite (s.sendFrame len id)) ∨
    (i = .service ∧ execService s = .next t) := by
  rcases exec_cases i s with ⟨c, v, hreads, _, e⟩ | ⟨a, d, rfl, e⟩ | ⟨a, d, rfl, ha, e⟩ | ⟨len, id, rfl, e⟩ | rfl
  · obtain rfl := Host.Outcome.next.inj (e.symm.trans h)
    exact .inl ⟨⟨c, v, rfl⟩, (by rintro _ _ rfl; nomatch hreads), (by rintro rfl; nomatch hreads)⟩
  · obtain rfl := Host.Outcome.next.inj (e.symm.trans h)
    exact .inl ⟨⟨true, 0, rfl⟩, nofun, nofun⟩
  · obtain rfl := Host.Outcome.next.inj (e.symm.trans h)
    exact .inr (.inl ⟨a, d, rfl, ha, rfl⟩)
  · obtain rfl := Host.Outcome.next.inj (e.symm.trans h)
    exact .inr (.inr (.inl ⟨len, id, rfl, rfl⟩))
  · exact .inr (.inr (.inr ⟨rfl, h⟩))

/-! ### The two paths (10_state.md R27) -/

theorem SameReceivePath.refl (s : State) : SameReceivePath s s :=
  ⟨rfl, rfl, rfl, rfl, rfl, rfl, rfl, rfl, rfl, rfl, rfl⟩

/-- SEND writes no register of the receive path. -/
theorem exec_send_sameReceivePath {len id : Byte} {s t : State} (h : exec (.send len id) s = .next t) :
    SameReceivePath s t := by
  rw [exec_send_eq] at h
  obtain rfl := Host.Outcome.next.inj h
  exact .refl s

/-- SERVICE writes neither the send path, nor POLY, nor the events to come. -/
theorem execService_sameSendPath {s t : State} (h : execService s = .next t) :
    SameSendPath s t ∧ t.poly = s.poly ∧ t.inputs = s.inputs := by
  obtain ⟨s', st, br, rfl, hover, hct, _⟩ := execService_cases h
  rw [hover]
  exact ⟨⟨hct.symm, rfl, rfl, rfl, rfl⟩, rfl, rfl⟩

/-- SERVICE's response shows the STATUS and BYTES_READ it leaves (44_receive.md R72). -/
theorem execService_responses {s t : State} (h : execService s = .next t) :
    t.responses = s.responses ++ [rspWord false t.status.code t.bytesRead] := by
  obtain ⟨s', st, br, rfl, hover, _⟩ := execService_cases h
  have hkept : s'.responses = s.responses := by rw [hover]; rfl
  rw [State.finishService_responses, hkept]
  rfl

/-- A command other than SERVICE leaves the receive path. -/
theorem exec_sameReceivePath {i : Instr} {s t : State} (h : exec i s = .next t) (hne : i ≠ .service) :
    SameReceivePath s t := by
  rcases exec_next_cases h with ⟨⟨c, v, rfl⟩, _⟩ | ⟨a, d, _, _, rfl⟩ | ⟨len, id, rfl, _⟩ | ⟨hi, _⟩
  · exact .refl s
  · exact .refl s
  · exact exec_send_sameReceivePath h
  · exact absurd hi hne

/-- A command other than SEND leaves TXQ and the transport's answers. -/
theorem exec_txq {i : Instr} {s t : State} (h : exec i s = .next t) (hne : ∀ len id, i ≠ .send len id) :
    t.txq = s.txq ∧ t.writeResults = s.writeResults ∧ t.draws = s.draws := by
  rcases exec_next_cases h with ⟨⟨c, v, rfl⟩, _⟩ | ⟨a, d, _, _, rfl⟩ | ⟨len, id, hi, _⟩ | ⟨_, he⟩
  · exact ⟨rfl, rfl, rfl⟩
  · exact ⟨rfl, rfl, rfl⟩
  · exact absurd hi (hne len id)
  · obtain ⟨⟨_, _, htxq, hwrites, hdraws⟩, _⟩ := execService_sameSendPath he
    exact ⟨htxq.symm, hwrites.symm, hdraws.symm⟩

/-- A command other than TXWR and SEND leaves TXBUF. -/
theorem exec_txbuf {i : Instr} {s t : State} (h : exec i s = .next t) (hnotTxwr : ∀ a d, i ≠ .txwr a d)
    (hnotSend : ∀ len id, i ≠ .send len id) : t.txbuf = s.txbuf := by
  rcases exec_next_cases h with ⟨⟨c, v, rfl⟩, _⟩ | ⟨a, d, hi, _⟩ | ⟨len, id, hi, _⟩ | ⟨_, he⟩
  · rfl
  · exact absurd hi (hnotTxwr a d)
  · exact absurd hi (hnotSend len id)
  · obtain ⟨⟨_, htxbuf, _⟩, _⟩ := execService_sameSendPath he
    exact htxbuf.symm

/-- Settles O47: the frame of each state, over the shapes of a command. -/
theorem onlyTheListedCommandsWriteEachState : Obligations.OnlyTheListedCommandsWriteEachState := by
  unfold Obligations.OnlyTheListedCommandsWriteEachState
  intro i s t h
  obtain ⟨hpoly, hct, hinputs⟩ := exec_fixed h
  refine ⟨hpoly, hct, hinputs, exec_txbuf h, exec_txq h, exec_sameReceivePath h, ?service⟩
  case service =>
    rintro rfl
    exact (execService_sameSendPath h).1

/-! ### The queues (20_memory.md R36) -/

theorem exec_rxq {i : Instr} {s t : State} (h : exec i s = .next t) : ∃ used, s.rxq = used ++ t.rxq := by
  by_cases hi : i = .service
  · subst hi
    obtain ⟨s', st, br, rfl, _, _, _, ⟨used, hused, _⟩, _⟩ := execService_cases h
    exact ⟨used, hused⟩
  · obtain ⟨_, hrxq, _⟩ := exec_sameReceivePath h hi
    exact ⟨[], hrxq⟩

/-- SEND adds what reaches the link to the tail of TXQ. -/
theorem exec_send_txq {len id : Byte} {s t : State} (h : exec (.send len id) s = .next t) :
    t.txq = s.txq ++ s.nextWrite.reached (s.sendFrame len id) := by
  rw [exec_send_eq] at h
  obtain rfl := Host.Outcome.next.inj h
  rfl

/-- Settles O49: SERVICE alone takes bytes, and SEND alone adds bytes. -/
theorem queuesAreFirstInFirstOut : Obligations.QueuesAreFirstInFirstOut := by
  unfold Obligations.QueuesAreFirstInFirstOut
  refine fun i s t h => ⟨exec_rxq h, ?_⟩
  by_cases hsend : ∃ len id, i = .send len id
  · obtain ⟨len, id, rfl⟩ := hsend
    exact ⟨_, exec_send_txq h⟩
  · obtain ⟨htxq, _⟩ := exec_txq h fun len id hi => hsend ⟨len, id, hi⟩
    exact ⟨[], by rw [htxq, List.append_nil]⟩

/-! ### The one response (30_encoding.md R46) -/

/-- A command that answers gives one more word, and SERVICE alone fills STS. -/
theorem exec_responses {i : Instr} {s t : State} (h : exec i s = .next t) :
    ∃ c sts val, t.responses = s.responses ++ [rspWord c sts val] ∧ (i ≠ .service → sts = 0#8) ∧
      (i = .service → val = t.bytesRead ∧ sts = t.status.code ∧ c = false) := by
  rcases exec_next_cases h with ⟨⟨c, v, rfl⟩, _, hne⟩ | ⟨a, d, rfl, _, rfl⟩ | ⟨len, id, rfl, rfl⟩ | ⟨rfl, he⟩
  · exact ⟨c, 0, v, rfl, fun _ => rfl, fun hi => absurd hi hne⟩
  · exact ⟨false, 0, 0, rfl, fun _ => rfl, nofun⟩
  · exact ⟨false, 0, _, State.transportWrite_responses _ _, fun _ => rfl, nofun⟩
  · exact ⟨false, _, _, execService_responses he, fun hne => absurd rfl hne, fun _ => ⟨rfl, rfl, rfl⟩⟩

/-- Settles O10, by the fields of a response word. -/
theorem everyCommandGivesOneResponse : Obligations.EveryCommandGivesOneResponse := by
  unfold Obligations.EveryCommandGivesOneResponse
  intro i s t h
  obtain ⟨c, sts, val, hresp, hother, hservice⟩ := exec_responses h
  refine ⟨rspWord c sts val, hresp, rspWord_top c sts val, fun hi => ?_, fun hi => ?_⟩
  · rw [rspWord_sts, hother hi]
    rfl
  · rw [rspWord_valField, rspWord_sts, rspWord_cerrBit]
    exact hservice hi

end Sys2Proof.Machine

/-! The invariant (10_state.md sections 2 to 5): launch meets it, every step keeps it, and from it no step stops. -/

namespace Sys2Proof.Machine

/-! ### The parts of the state the invariant reads -/

/-- The invariant reads POLY, the receive path and the form of TXBUF. -/
theorem Inv.of_sameReceivePath {s t : State} (h : Inv s) (hpoly : t.poly = s.poly) (hrx : SameReceivePath s t)
    (htx : t.txbuf.wf = true) : Inv t := by
  obtain ⟨hct, _, hrxbuf, hpState, _, _, hpLen, hpCur, hstatus, hbytesRead, hups⟩ := hrx
  constructor
  case table => rw [← hct, hpoly, h.table]
  case txbuf => exact htx
  case rxbuf => exact hrxbuf ▸ h.rxbuf
  case pState => exact hpState ▸ h.pState
  case ups => exact hups ▸ h.ups
  case pLen => exact hpLen ▸ h.pLen
  case payload => rw [← hpState, ← hpCur, ← hpLen]; exact h.payload
  case complete => rw [← hpState, ← hpCur, ← hpLen]; exact h.complete
  case pCur => exact hpCur ▸ h.pCur
  case bytesRead => exact hbytesRead ▸ h.bytesRead
  case newData => rw [← hbytesRead, ← hstatus]; exact h.newData

theorem Inv.setInputs {s : State} (h : Inv s) (l : List Event) : Inv { s with inputs := l } :=
  h.of_sameReceivePath rfl (.refl s) h.txbuf

/-- Reset gives the parser registers their reset values, whatever they held. -/
theorem Inv.applyReset {s : State} (h : Inv s) : Inv s.applyReset where
  table := rfl
  txbuf := h.txbuf
  rxbuf := h.rxbuf
  pState := nofun
  ups := rfl
  pLen := Nat.zero_le _
  payload := nofun
  complete := by rintro (hp | hp) <;> nomatch hp
  pCur := Nat.zero_le _
  bytesRead := Nat.zero_le _
  newData := ⟨fun hne => absurd rfl hne, nofun⟩

/-- Settles O44: launch gives the reset values, and buffers in the form assumed. -/
theorem launchMeetsTheInvariant : Obligations.LaunchMeetsTheInvariant := by
  unfold Obligations.LaunchMeetsTheInvariant
  intro p htx hrx
  constructor
  case table => exact State.launch_ct p
  case txbuf => exact htx
  case rxbuf => exact hrx
  case newData => exact ⟨fun hne => absurd rfl hne, nofun⟩
  case complete => rintro (hp | hp) <;> nomatch hp
  all_goals simp

/-! ### The commands -/

/-- The end of a SERVICE keeps the invariant where BYTES_READ is a payload length at NewData and 0 otherwise. -/
theorem Inv.finishService {s : State} {st : Status} {br : Byte} (h : Inv s)
    (hnew : st = .newData → 1 ≤ br.toNat ∧ br.toNat ≤ 254) (hother : st ≠ .newData → br = 0x00) :
    Inv (s.finishService st br) where
  table := h.table
  txbuf := h.txbuf
  rxbuf := h.rxbuf
  pState := h.pState
  ups := h.ups
  pLen := h.pLen
  payload := h.payload
  complete := h.complete
  pCur := h.pCur
  bytesRead := by
    rw [State.finishService_bytesRead]
    by_cases hst : st = .newData
    · exact (hnew hst).2
    · rw [hother hst]; exact Nat.zero_le _
  newData := by
    rw [State.finishService_bytesRead, State.finishService_status]
    refine ⟨fun hne => by_contra fun hst => hne (hother hst), fun hst hzero => ?_⟩
    have hpos := (hnew hst).1
    rw [hzero] at hpos
    exact absurd hpos (by decide)

/-- A run of bytes that ends in an outcome other than NewData reports no bytes. -/
theorem rxRun_term_bytesRead {q : List Byte} {s s' : State} {st : Status} {br : Byte}
    (hr : rxRun q s = .term s' st br) (hst : st ≠ .newData) : br = 0x00 := by
  have hstate := rxRun_state q s
  rw [hr] at hstate
  obtain ⟨_, _, _, _, _, _, _, _, hother⟩ := hstate
  exact hother hst

theorem Inv.execService {s t : State} (h : Inv s) (he : execService s = .next t) : Inv t := by
  by_cases hq : s.rxq = []
  · rw [execService_empty hq] at he
    obtain rfl := Host.Outcome.next.inj he
    exact h.finishService nofun fun _ => rfl
  · rw [execService_eq_run hq] at he
    have hkeeps := h.rxRun_keeps s.rxq
    cases hr : rxRun s.rxq s with
    | more s' =>
      rw [hr] at he hkeeps
      obtain rfl := Host.Outcome.next.inj he
      exact Inv.finishService hkeeps nofun fun _ => rfl
    | term s' st br =>
      rw [hr] at he hkeeps
      obtain rfl := Host.Outcome.next.inj he
      exact hkeeps.1.finishService hkeeps.2 (rxRun_term_bytesRead hr)
    | abort s' => rw [hr] at hkeeps; exact hkeeps.elim
    | outside => rw [hr] at hkeeps; exact hkeeps.elim

/-- Every command keeps TXBUF in canonical form. -/
theorem exec_txbuf_wf {i : Instr} {s t : State} (h : exec i s = .next t) (hwf : s.txbuf.wf = true) :
    t.txbuf.wf = true := by
  rcases exec_next_cases h with ⟨⟨c, v, rfl⟩, _⟩ | ⟨a, d, _, ha, rfl⟩ | ⟨len, id, _, rfl⟩ | ⟨_, he⟩
  · exact hwf
  · exact Memory.wf_write _ _ hwf ha
  · rw [State.transportWrite_txbuf]
    exact stuff_wf _ (Nat.min_le_right _ _) hwf
  · obtain ⟨⟨_, htxbuf, _⟩, _⟩ := execService_sameSendPath he
    exact htxbuf ▸ hwf

theorem Inv.exec {i : Instr} {s t : State} (h : Inv s) (he : exec i s = .next t) : Inv t := by
  by_cases hi : i = .service
  · subst hi
    exact h.execService he
  · exact h.of_sameReceivePath (exec_fixed he).1 (exec_sameReceivePath he hi) (exec_txbuf_wf he h.txbuf)

/-! ### The step -/

theorem Inv.linkIn {s : State} (h : Inv s) (l : List Byte) : Inv (s.linkIn l) := h.setRxq _

theorem Inv.linkOut {s : State} (h : Inv s) (n : Nat) : Inv (s.linkOut n) :=
  h.of_sameReceivePath rfl (.refl s) h.txbuf

/-- Settles O45, by what a step can do. -/
theorem everyStepKeepsTheInvariant : Obligations.EveryStepKeepsTheInvariant := by
  unfold Obligations.EveryStepKeepsTheInvariant
  intro s t h hstep
  rcases step_cases hstep with ⟨_, rfl⟩ | ⟨w, rest, i, _, _, he⟩ | ⟨w, rest, e, _, _, rfl⟩ | ⟨l, rest, _, rfl⟩ |
    ⟨n, rest, _, rfl⟩ | ⟨rest, _, rfl⟩
  · exact h
  · exact (h.setInputs rest).exec he
  · exact (h.setInputs rest).of_sameReceivePath rfl (.refl _) h.txbuf
  · exact (h.setInputs rest).linkIn l
  · exact (h.setInputs rest).linkOut n
  · exact (h.setInputs rest).applyReset

/-- Settles O46, by the oldest input: a command is answered from the invariant, and nothing else can stop. -/
theorem noStepStops : Obligations.NoStepStops := by
  unfold Obligations.NoStepStops
  intro s h
  cases hin : s.inputs with
  | nil => exact ⟨_, step_idle hin⟩
  | cons e rest =>
    cases e with
    | command w =>
      rw [step_command hin]
      cases hd : decode w with
      | ok i =>
        rw [runWord_ok hd]
        exact (h.setInputs rest).exec_next i
      | error e => exact ⟨_, runWord_error hd _⟩
    | linkIn l => exact ⟨_, step_linkIn hin⟩
    | linkOut n => exact ⟨_, step_linkOut hin⟩
    | reset => exact ⟨_, step_reset hin⟩

end Sys2Proof.Machine

/-! The events other than a command, and the blocks of a system (10_state.md R23, R24; 20_memory.md R35;
70_reset_and_hazards.md R103; 60_exceptions.md R100). -/

namespace Sys2Proof.Machine

/-- Settles O5, by the rule of a command word on the port. -/
theorem stepRunsTheIssuedCommand : Obligations.StepRunsTheIssuedCommand := by
  unfold Obligations.StepRunsTheIssuedCommand
  intro s w rest i hin hd
  rw [step_command hin, runWord_ok hd]

/-- Settles O6: the rule of each event, and what is left of TXQ. -/
theorem linkAgentsTouchOnlyTheQueues : Obligations.LinkAgentsTouchOnlyTheQueues := by
  unfold Obligations.LinkAgentsTouchOnlyTheQueues
  refine fun s rest => ⟨step_idle, fun bytes hin => step_linkIn hin, fun taken kept htxq hin => ?removal⟩
  case removal =>
    have hkept : s.txq.drop taken.length = kept := by rw [htxq, List.drop_left]
    rw [step_linkOut hin, State.linkOut, hkept]

/-- Settles O7: reset as one record update, and the fields of the launch state. -/
theorem resetGivesTheResetValues : Obligations.ResetGivesTheResetValues := by
  unfold Obligations.ResetGivesTheResetValues
  exact ⟨fun s rest hin => step_reset hin,
    fun p => ⟨rfl, rfl, rfl, rfl, rfl, rfl, rfl, rfl, rfl, rfl, rfl, rfl, rfl, rfl⟩, rfl⟩

theorem systemStep_of_none {k : Nat} {sys : System} (h : sys[k]? = none) : systemStep k sys = .next sys := by
  rw [systemStep, h]

/-- A step of a system that answers is a step of the chosen block that answers. -/
theorem systemStep_of_some {k : Nat} {sys sys' : System} {s : State} (h : sys[k]? = some s)
    (hstep : systemStep k sys = .next sys') : ∃ t, step s = .next t ∧ sys' = sys.set k t := by
  rw [systemStep, h] at hstep
  dsimp only at hstep
  split at hstep
  · rename_i t ht
    exact ⟨t, ht, (Host.Outcome.next.inj hstep).symm⟩
  · nomatch hstep
  · nomatch hstep

/-- Settles O53: the new state of block k is set at k and nowhere else. -/
theorem blocksShareNoState : Obligations.BlocksShareNoState := by
  unfold Obligations.BlocksShareNoState
  intro k sys sys' hstep
  cases hk : sys[k]? with
  | none =>
    rw [systemStep_of_none hk] at hstep
    obtain rfl := Host.Outcome.next.inj hstep
    exact ⟨rfl, fun _ _ => rfl, nofun⟩
  | some s =>
    obtain ⟨t, ht, rfl⟩ := systemStep_of_some hk hstep
    refine ⟨List.length_set, fun j hj => List.getElem?_set_ne hj.symm, fun s' hs' => ?_⟩
    obtain rfl := Option.some.inj hs'
    exact ⟨t, ht, List.getElem?_set_self (List.getElem?_eq_some_iff.1 hk).1⟩

end Sys2Proof.Machine

/-! The laws of the checksum functions, for every POLY (41_checksum.md R56). -/

namespace Sys2Proof.Machine

theorem tableEntry_xor (poly a b : Byte) : tableEntry poly (a ^^^ b) = tableEntry poly a ^^^ tableEntry poly b :=
  tableSteps_xor poly 8 a b

/-- With POLY 0 a division step only shifts. -/
theorem tableSteps_poly_zero (n : Nat) (c : Byte) : tableSteps 0 n c = c <<< n := by
  induction n generalizing c with
  | zero => exact (BitVec.shiftLeft_zero c).symm
  | succ n ih =>
    have hstep : tableStep 0 c = c <<< 1 := by
      rw [tableStep]
      split
      · exact BitVec.xor_zero
      · rfl
    rw [tableSteps, hstep, ih, ← BitVec.shiftLeft_add, Nat.add_comm]

theorem tableEntry_poly_zero (i : Byte) : tableEntry 0 i = 0 := by
  rw [tableEntry, tableSteps_poly_zero, BitVec.shiftLeft_eq_zero (by decide)]
  rfl

/-- ChecksumOf on the built table is the bitwise CRC with initial value 0 and no reflection. -/
theorem checksumOf_buildTable (poly : Byte) (l : List Byte) :
    checksumOf (buildTable poly) l = l.foldl (fun crc x => tableEntry poly (crc ^^^ x)) 0x00 := by
  rw [checksumOf, funext₂ (evaluate_buildTable poly)]

theorem checksumOf_zeros (poly : Byte) (n : Nat) : checksumOf (buildTable poly) (List.replicate n 0x00) = 0x00 := by
  induction n with
  | zero => rfl
  | succ n ih =>
    rw [List.replicate_succ', checksumOf_append, ih, evaluate_buildTable]
    exact tableEntry_xor_self poly 0x00

theorem checksumOf_singleton (poly x : Byte) : checksumOf (buildTable poly) [x] = tableEntry poly x := by
  rw [checksumOf_buildTable, List.foldl_cons, List.foldl_nil]
  exact congrArg _ BitVec.zero_xor

/-- With POLY 0 the last byte takes every checksum to 0. -/
theorem checksumOf_poly_zero (l : List Byte) : checksumOf (buildTable 0) l = 0 := by
  rcases List.eq_nil_or_concat l with rfl | ⟨l', b, rfl⟩
  · rfl
  · rw [List.concat_eq_append, checksumOf_append, evaluate_buildTable, tableEntry_poly_zero]

/-- Settles O17: the laws of the table's entries, and those of the fold over them. -/
theorem checksumLawsHoldForEveryPolynomial : Obligations.ChecksumLawsHoldForEveryPolynomial := by
  unfold Obligations.ChecksumLawsHoldForEveryPolynomial
  refine ⟨fun poly => ⟨?zero, ?one, fun a b => ?linear, fun l => ?bitwise, checksumOf_zeros poly, fun x => ?singleton⟩,
    fun i => ?entries, checksumOf_poly_zero, ?check⟩
  case zero => exact (buildTable_getElem poly 0).trans (tableEntry_zero poly)
  case one => exact (buildTable_getElem poly 1).trans (tableEntry_one poly)
  case linear => rw [buildTable_getElem, buildTable_getElem, buildTable_getElem, tableEntry_xor]
  case bitwise =>
    rw [checksumOf_buildTable]
    simp only [tableEntry, tableSteps_eq_iterate, funext (tableStep_eq poly)]
  case singleton => rw [checksumOf_singleton, buildTable_getElem]
  case entries => exact (buildTable_getElem 0 i).trans (tableEntry_poly_zero i)
  case check =>
    rw [checksumOf_buildTable]
    decide +kernel

end Sys2Proof.Machine

/-! The frame SEND builds, field by field (30_encoding.md R41, R43), what SEND leaves (43_send.md R70, R71), and the
checksum of what it leaves (41_checksum.md R59). -/

namespace Sys2Proof.Machine

/-! ### The fields of a frame (30_encoding.md R40) -/

theorem frameBytes_length (id ovh len c : Byte) (payload : List Byte) :
    (frameBytes id ovh len payload c).length = payload.length + 6 := by
  simp [frameBytes]

/-- The byte after the payload. -/
theorem frameBytes_checksum (id ovh len c : Byte) (payload : List Byte) :
    (frameBytes id ovh len payload c)[payload.length + 4]? = some c := by
  simp [frameBytes]

/-- The last byte. -/
theorem frameBytes_stop (id ovh len c : Byte) (payload : List Byte) :
    (frameBytes id ovh len payload c)[payload.length + 5]? = some Config.STOP := by
  simp [frameBytes]

/-- The payload of the frame SEND builds. -/
def State.sentPayload (s : State) (n : Nat) : List Byte := (stuff s.txbuf n).bytes n

theorem State.sentPayload_length (s : State) (n : Nat) : (s.sentPayload n).length = n := Memory.bytes_length _ _

theorem State.sendFrame_eq (s : State) (len id : Byte) :
    s.sendFrame len id = frameBytes id (computeOverhead s.txbuf (clampLen len)) (BitVec.ofNat 8 (clampLen len))
      (s.sentPayload (clampLen len)) (checksumOf s.ct (s.sentPayload (clampLen len))) := rfl

theorem clampLen_le (len : Byte) : clampLen len ≤ 254 := Nat.min_le_right _ _

/-- OVERHEAD is 0xFF, or the index of a sentinel below the length (30_encoding.md R43). -/
theorem computeOverhead_range (m : Memory) {n : Nat} (hn : n ≤ 254) :
    computeOverhead m n = 0xFF ∨
    ∃ i, i < n ∧ m.read i = Config.START ∧ computeOverhead m n = BitVec.ofNat 8 i := by
  rcases none_or_first_sentinel m n with hfree | ⟨i, hi, hs, hfirst⟩
  · exact .inl (computeOverhead_of_none (.inr hfree))
  · exact .inr ⟨i, hi, hs, computeOverhead_of_first hn hi hs hfirst⟩

/-- Settles O27, field by field. -/
theorem sentFrameFieldsAreInRange : Obligations.SentFrameFieldsAreInRange := by
  unfold Obligations.SentFrameFieldsAreInRange
  rintro len id s _ rfl
  have hlength : (s.sentPayload (clampLen len)).length = clampLen len := s.sentPayload_length _
  refine ⟨?length, rfl, rfl, rfl, ?stop, ?overhead⟩
  case length => rw [State.sendFrame_eq, frameBytes_length, hlength, clampLen_eq]
  case stop =>
    have hstop := frameBytes_stop id (computeOverhead s.txbuf (clampLen len)) (BitVec.ofNat 8 (clampLen len))
      (checksumOf s.ct (s.sentPayload (clampLen len))) (s.sentPayload (clampLen len))
    rwa [hlength] at hstop
  case overhead =>
    have hfield : (s.sendFrame len id)[2]? = some (computeOverhead s.txbuf (clampLen len)) := rfl
    rw [hfield]
    exact (computeOverhead_range s.txbuf (clampLen_le len)).imp (congrArg some)
      fun ⟨i, hi, hs, hovh⟩ => ⟨i, hi, hs, congrArg some hovh⟩

/-! ### What SEND leaves (43_send.md R70) -/

/-- Settles O28: SEND leaves TXBUF as Stuff does. -/
theorem sendLeavesTheBufferStuffed : Obligations.SendLeavesTheBufferStuffed := by
  unfold Obligations.SendLeavesTheBufferStuffed
  rintro len id s _ rfl
  exact ⟨_, exec_send_eq len id s, fun x hx => stuff_read_of_ge _ (clampLen_le len) hx, fun _ => rfl,
    fun hfree => computeOverhead_of_none (.inr hfree)⟩

/-- Settles O29: CRCTX folds over the stuffed payload, which is the payload the frame carries. -/
theorem crctxAfterSendAnswersTheChecksum : Obligations.CrctxAfterSendAnswersTheChecksum := by
  unfold Obligations.CrctxAfterSendAnswersTheChecksum
  rintro len id s _ rfl
  have hlength : (s.sentPayload (clampLen len)).length = clampLen len := s.sentPayload_length _
  have hle := clampLen_le len
  have hn : (BitVec.ofNat 8 (clampLen len)).toNat = clampLen len := by rw [BitVec.toNat_ofNat]; omega
  refine ⟨_, checksumOf s.ct (s.sentPayload (clampLen len)), exec_send_eq len id s, ?field, ?answer⟩
  case field =>
    have hfield := frameBytes_checksum id (computeOverhead s.txbuf (clampLen len)) (BitVec.ofNat 8 (clampLen len))
      (checksumOf s.ct (s.sentPayload (clampLen len))) (s.sentPayload (clampLen len))
    rwa [hlength] at hfield
  case answer =>
    rw [← clampLen_eq, exec, execCrctx, checksumCommand_of_le _ (hn.trans_le hle), hn]
    rfl

/-! ### SEND and the receive path (43_send.md R71) -/

/-- The frame SEND builds comes from CT and TXBUF. -/
theorem SameSendPath.sendFrame {s s' : State} (h : SameSendPath s s') (len id : Byte) :
    s.sendFrame len id = s'.sendFrame len id := by
  obtain ⟨hct, htxbuf, _⟩ := h
  rw [State.sendFrame, State.sendFrame, hct, htxbuf]

theorem SameSendPath.nextWrite {s s' : State} (h : SameSendPath s s') : s.nextWrite = s'.nextWrite := by
  obtain ⟨_, _, _, hwrites, hdraws⟩ := h
  rw [State.nextWrite, State.nextWrite, hwrites, hdraws]

/-- SEND takes two states with the same send path to two with the same send path. -/
theorem SameSendPath.transportWrite {s s' : State} (h : SameSendPath s s') (f : List Byte) :
    SameSendPath (s.transportWrite f) (s'.transportWrite f) := by
  have hnext := h.nextWrite
  obtain ⟨hct, htxbuf, htxq, hwrites, hdraws⟩ := h
  simp [SameSendPath, State.dropWrite_draws, hct, htxbuf, htxq, hwrites, hdraws, hnext]

theorem SameSendPath.stuffed {s s' : State} (h : SameSendPath s s') (n : Nat) :
    SameSendPath { s with txbuf := stuff s.txbuf n } { s' with txbuf := stuff s'.txbuf n } := by
  obtain ⟨hct, htxbuf, htxq, hwrites, hdraws⟩ := h
  exact ⟨hct, by rw [htxbuf], htxq, hwrites, hdraws⟩

/-- Settles O30: the frame and the draw come from the send path. -/
theorem sendDoesNotDependOnTheReceivePath : Obligations.SendDoesNotDependOnTheReceivePath := by
  unfold Obligations.SendDoesNotDependOnTheReceivePath
  intro len id s s' h
  have hstuffed := h.stuffed (clampLen len)
  refine ⟨_, _, rspWord false 0x00 s.nextWrite.val, rfl, rfl, ?send, exec_send_sameReceivePath rfl,
    exec_send_sameReceivePath rfl, State.transportWrite_responses _ _, ?response⟩
  case send =>
    rw [h.sendFrame len id]
    exact hstuffed.transportWrite _
  case response =>
    rw [h.nextWrite]
    exact State.transportWrite_responses _ _

end Sys2Proof.Machine

/-! The pseudo-instructions WRITERAW and READRAW, run as the commands they expand to (30_encoding.md R52). -/

namespace Sys2Proof.Machine

theorem execAll_cons {i : Instr} {is : List Instr} {s t : State} (h : exec i s = .next t) :
    execAll (i :: is) s = execAll is t := by
  rw [execAll, h]

/-- The TXWRs store the bytes from the first address on. -/
theorem execAll_txwrFrom {a : Nat} {ds : List Byte} (h : a + ds.length ≤ 254) (s : State) :
    execAll (txwrFrom a ds) s = .next { s with
      txbuf := storeBytes s.txbuf a ds
      responses := s.responses ++ List.replicate ds.length 0x00000000#32 } := by
  induction ds generalizing a s with
  | nil => rw [List.length_nil, List.replicate_zero, List.append_nil]; rfl
  | cons d ds ih =>
    rw [List.length_cons] at h
    have ha : (BitVec.ofNat 8 a).toNat = a := by rw [BitVec.toNat_ofNat]; omega
    have hstore : exec (.txwr (BitVec.ofNat 8 a) d) s = _ := execTxwr_of_le (by omega) d s
    rw [txwrFrom, execAll_cons hstore, ih (by omega), ha, List.length_cons, List.replicate_succ, List.append_assoc]
    rfl

/-- The RXRDs answer the bytes from the first address on. -/
theorem execAll_rxrdFrom {a k : Nat} (h : a + k ≤ 254) (s : State) :
    execAll (rxrdFrom a k) s = .next { s with
      responses := s.responses ++ (List.range k).map fun j => BitVec.setWidth 32 (s.rxbuf.read (a + j)) } := by
  induction k generalizing a s with
  | zero => rw [List.range_zero, List.map_nil, List.append_nil]; rfl
  | succ k ih =>
    have ha : (BitVec.ofNat 8 a).toNat = a := by rw [BitVec.toNat_ofNat]; omega
    have hread : exec (.rxrd (BitVec.ofNat 8 a)) s = _ := readCommand_of_le s.rxbuf (by omega) s
    rw [rxrdFrom, execAll_cons hread, ih (by omega), ha, List.append_assoc, List.range_succ_eq_map, List.map_cons,
      List.map_map]
    simp only [Function.comp_def, Nat.add_zero, Nat.succ_eq_add_one, Nat.add_assoc, Nat.add_comm 1, List.cons_append,
      List.nil_append]

/-- Settles O52: the expansions are those of bytes stored and read in order. -/
theorem writeRawThenReadRaw : Obligations.WriteRawThenReadRaw := by
  unfold Obligations.WriteRawThenReadRaw
  intro a ds s
  refine ⟨fun h => ⟨if_pos h, if_pos h⟩, fun h => ?fits⟩
  case fits =>
    refine ⟨_, _, _, _, if_neg (Nat.not_lt.2 h), execAll_txwrFrom h s, fun j hj => ?stored, fun x hx => ?other, rfl,
      if_neg (Nat.not_lt.2 h), execAll_rxrdFrom h s, rfl⟩
    case stored => simp [storeBytes_read, hj]
    case other => exact (storeBytes_read ..).trans (dif_neg (by omega))

end Sys2Proof.Machine

/-! What a SERVICE that answers records (44_receive.md R72, R73), that it completes from the invariant, and that it is
the same whatever the send path holds (10_state.md R27). -/

namespace Sys2Proof.Machine

/-! ### Completion and outcome -/

/-- Settles O33: SERVICE answers from the invariant, and from one of the seven states it leaves UPS. -/
theorem serviceCompletesOnEveryStream : Obligations.ServiceCompletesOnEveryStream := by
  unfold Obligations.ServiceCompletesOnEveryStream
  intro s h
  obtain ⟨t, ht⟩ := h.execService_next
  obtain ⟨hsend, hpoly, hinputs⟩ := execService_sameSendPath ht
  obtain ⟨s', st, br, rfl, _, _, hups, ⟨used, hused, hnonempty⟩, _⟩ := execService_cases ht
  exact ⟨_, used, ht, hsend, hpoly, hups.resolve_right fun ⟨_, hp⟩ => h.pState hp, hinputs, hused, hnonempty⟩

/-- Settles O34, outcome by outcome. -/
theorem serviceRecordsItsOutcome : Obligations.ServiceRecordsItsOutcome := by
  unfold Obligations.ServiceRecordsItsOutcome
  intro s t h
  obtain ⟨s', st, br, rfl, _, _, _, _, hnoData, hterm, hzero, hnew, hdrained⟩ := execService_cases h
  refine ⟨hnoData, fun hst => hterm ?_, hzero, hnew, hdrained⟩
  rw [State.finishService_status] at hst
  rcases hst with rfl | rfl | rfl | rfl <;> exact ⟨nofun, nofun⟩

/-! ### SERVICE and the send path (10_state.md R27) -/

/-- The receive path that a SERVICE leaves in u, and its response, in a state that is e otherwise. -/
def State.served (u e : State) : State :=
  { u.over e with
    rxq := u.rxq, status := u.status, bytesRead := u.bytesRead
    responses := e.responses ++ [rspWord false u.status.code u.bytesRead] }

/-- The list of a run that ends is not empty. -/
theorem ne_nil_of_rxRun_term {q : List Byte} {s u : State} {st : Status} {br : Byte} (h : rxRun q s = .term u st br) :
    q ≠ [] := by
  rintro rfl
  nomatch h

/-- A run that ends in an outcome, from the same parser and CT with everything else of e. -/
theorem rxRun_over_of_term {q : List Byte} {s u : State} {st : Status} {br : Byte} (e : State)
    (h : rxRun q s = .term u st br) : rxRun q (s.over e) = .term (u.over { e with rxq := u.rxq }) st br := by
  obtain ⟨b, l, rfl⟩ := List.exists_cons_of_ne_nil (ne_nil_of_rxRun_term h)
  rw [rxRun_over, h]

/-- The run over a nonempty list does not read RXQ. -/
theorem rxRun_setRxq {q : List Byte} (hq : q ≠ []) (s : State) (r : List Byte) :
    rxRun q { s with rxq := r } = rxRun q s := by
  obtain ⟨b, l, rfl⟩ := List.exists_cons_of_ne_nil hq
  exact rxRun_rxq b l r s

theorem execService_setRxq {q : List Byte} (hq : q ≠ []) (s : State) :
    execService { s with rxq := q } = (rxRun q s).finish :=
  (execService_eq_run hq).trans (congrArg RxResult.finish (rxRun_setRxq hq s q))

/-- SERVICE reads and writes the receive path alone, whatever the rest of the state holds. -/
theorem execService_over {s u : State} (e : State) (h : execService s = .next u) :
    execService { s.over e with rxq := s.rxq } = .next (u.served e) := by
  by_cases hq : s.rxq = []
  · rw [execService_empty hq] at h
    obtain rfl := Host.Outcome.next.inj h
    exact execService_empty hq
  · obtain ⟨b, l, hbl⟩ := List.exists_cons_of_ne_nil hq
    rw [execService_eq_run hq] at h
    rw [execService_setRxq hq, hbl, rxRun_over, ← hbl]
    cases hr : rxRun s.rxq s with
    | more s' => rw [hr] at h; obtain rfl := Host.Outcome.next.inj h; rfl
    | term s' st br => rw [hr] at h; obtain rfl := Host.Outcome.next.inj h; rfl
    | abort s' => rw [hr] at h; obtain rfl := Host.Outcome.next.inj h; rfl
    | outside => rw [hr] at h; nomatch h

/-- A state is another with the same receive path, in what SERVICE reads. -/
theorem SameReceivePath.eq_over {s s' : State} (h : SameReceivePath s s') : s' = { s.over s' with rxq := s.rxq } := by
  obtain ⟨hct, hrxq, hrxbuf, hpState, hpId, hpOvh, hpLen, hpCur, _, _, hups⟩ := h
  rw [State.over, hct, hrxq, hrxbuf, hpState, hpId, hpOvh, hpLen, hpCur, hups]

/-- Settles O43: SERVICE on the other state is SERVICE on this one's receive path. -/
theorem serviceDoesNotDependOnTheSendPath : Obligations.ServiceDoesNotDependOnTheSendPath := by
  unfold Obligations.ServiceDoesNotDependOnTheSendPath
  intro s s' t hsame h
  have h' : execService s' = .next (t.served s') := by
    rw [hsame.eq_over]
    exact execService_over s' h
  exact ⟨t.served s', _, h', .refl t, (execService_sameSendPath h).1, (execService_sameSendPath h').1,
    execService_responses h, rfl⟩

/-! ### A stream in two pieces (44_receive.md R81) -/

/-- A run over two lists whose first part goes on. -/
theorem rxRun_append_of_more {p q : List Byte} {s s' : State} (h : rxRun p s = .more s') (hq : q ≠ []) :
    rxRun (p ++ q) s = rxRun q s' := by
  obtain ⟨c, l, rfl⟩ := List.exists_cons_of_ne_nil hq
  rw [rxRun_append, h]

/-- The run of a SERVICE that ends with Continue from one of the seven states goes on. -/
theorem rxRun_of_continuing {s t : State} (h : execService s = .next t) (hq : s.rxq ≠ []) (hp : s.pState ≠ .undefined)
    (hst : t.status = .continuing) : ∃ s', rxRun s.rxq s = .more s' ∧ t = s'.finishService .continuing 0x00 := by
  rw [execService_eq_run hq] at h
  have hstate := rxRun_state s.rxq s
  cases hr : rxRun s.rxq s with
  | more s' =>
    rw [hr] at h
    exact ⟨s', rfl, (Host.Outcome.next.inj h).symm⟩
  | term s' st br =>
    rw [hr] at h hstate
    obtain rfl := Host.Outcome.next.inj h
    obtain ⟨_, _, _, _, _, hne, _⟩ := hstate
    exact absurd hst hne
  | abort s' =>
    rw [hr] at hstate
    exact absurd hstate.2.2 hp
  | outside => rw [hr] at h; nomatch h

/-- SERVICE reads neither STATUS, nor BYTES_READ, nor the responses given before. -/
theorem execService_setRecord {s u : State} (st : Status) (br : Byte) (l : List Word) (h : execService s = .next u) :
    execService { s with status := st, bytesRead := br, responses := l } =
      .next { u with responses := l ++ [rspWord false u.status.code u.bytesRead] } := by
  obtain ⟨⟨_, htxbuf, htxq, hwrites, hdraws⟩, hpoly, hinputs⟩ := execService_sameSendPath h
  have hserved : u.served { s with status := st, bytesRead := br, responses := l } =
      { u with responses := l ++ [rspWord false u.status.code u.bytesRead] } := by
    simp only [State.served, State.over, htxbuf, htxq, hwrites, hdraws, ← hpoly, ← hinputs]
  rw [← hserved]
  exact execService_over { s with status := st, bytesRead := br, responses := l } h

/-- A SERVICE whose first bytes end no frame goes on where the run over them ends. -/
theorem execService_append {s s' : State} {p q : List Byte} (hrxq : s.rxq = p ++ q) (hq : q ≠ [])
    (hrun : rxRun p s = .more s') : execService s = execService { s' with rxq := q } := by
  have hne : s.rxq ≠ [] := by rw [hrxq]; exact List.append_ne_nil_of_right_ne_nil p hq
  rw [execService_eq_run hne, hrxq, rxRun_append_of_more hrun hq, execService_setRxq hq]

/-- A run that goes on gives no response. -/
theorem rxRun_more_responses {q : List Byte} {s s' : State} (hrun : rxRun q s = .more s') :
    s'.responses = s.responses := by
  have hstate := rxRun_state q s
  rw [hrun] at hstate
  rw [hstate.1]
  rfl

/-- Settles O41: the whole is served from where the run over the first piece ends, and what the first SERVICE wrote
besides the parser no SERVICE reads. -/
theorem splittingAStreamChangesNoOutcome : Obligations.SplittingAStreamChangesNoOutcome := by
  unfold Obligations.SplittingAStreamChangesNoOutcome
  intro s t first later hrxq hp hfirst hlater ht hst u
  obtain ⟨s', hfirstRun, rfl⟩ := rxRun_of_continuing (s := { s with rxq := first }) ht hfirst hp hst
  have hrun : rxRun first s = .more s' := (rxRun_setRxq hfirst s first).symm.trans hfirstRun
  have hresp : s'.responses = s.responses := rxRun_more_responses hrun
  have hwhole : exec .service s = execService { s' with rxq := later } :=
    execService_append hrxq hlater hrun
  rw [hwhole]
  constructor
  case mp =>
    intro hu
    refine ⟨_, _, rfl, ?_, execService_setRecord .continuing 0x00 (s'.finishService .continuing 0x00).responses hu⟩
    rw [← hresp, ← execService_responses hu]
  case mpr =>
    rintro ⟨u', r, hu'resp, rfl, hu'⟩
    have hr : [rspWord false u'.status.code u'.bytesRead] = [r] :=
      List.append_cancel_left ((execService_responses hu').symm.trans hu'resp)
    rw [← hr, ← hresp]
    exact execService_setRecord s'.status s'.bytesRead s'.responses hu'

end Sys2Proof.Machine

/-! SERVICE on noise, on payload bytes and on a whole frame, well formed or not (44_receive.md R73 to R83,
60_exceptions.md R92, R96). -/

namespace Sys2Proof.Machine

/-! ### SERVICE from its run -/

theorem exec_service_of_run_more {s s' : State} (hq : s.rxq ≠ []) (h : rxRun s.rxq s = .more s') :
    exec .service s = .next { s' with
      status := .continuing, bytesRead := 0x00, responses := s'.responses ++ [0x00000300#32] } := by
  rw [exec, execService_eq_run hq, h, RxResult.finish, State.finishService_eq]
  rfl

theorem exec_service_of_run_term {s s' : State} {st : Status} {br : Byte} (h : rxRun s.rxq s = .term s' st br) :
    exec .service s = .next { s' with
      status := st, bytesRead := br
      responses := s'.responses ++ [(BitVec.setWidth 32 st.code <<< 8) ||| BitVec.setWidth 32 br] } := by
  rw [exec, execService_eq_run (ne_nil_of_rxRun_term h), h, RxResult.finish, State.finishService_eq]

/-! ### Noise and payload bytes (R74, R78, R81) -/

/-- Settles O37: the run over noise stays in FindStart. -/
theorem noiseIsDroppedInFindStart : Obligations.NoiseIsDroppedInFindStart := by
  unfold Obligations.NoiseIsDroppedInFindStart
  intro s hs hq hnoise
  rw [exec_service_of_run_more hq (rxRun_noise hs hnoise), if_neg hq]

/-- Bytes stored from an index on are read back in order. -/
theorem storeBytes_read_stored (m : Memory) (i : Nat) {l : List Byte} {j : Nat} (hj : j < l.length) :
    (storeBytes m i l).read (i + j) = l[j] := by
  rw [storeBytes_read, dif_pos (by omega)]
  simp only [Nat.add_sub_cancel_left]

theorem storeBytes_read_other (m : Memory) {i x : Nat} {l : List Byte} (hx : x < i ∨ i + l.length ≤ x) :
    (storeBytes m i l).read x = m.read x := by
  rw [storeBytes_read, dif_neg (by omega)]

/-- Settles O38: the run over payload bytes stores them. -/
theorem payloadBytesAreStoredConsecutively : Obligations.PayloadBytesAreStoredConsecutively := by
  unfold Obligations.PayloadBytesAreStoredConsecutively
  intro s hs hlen hq hfit
  refine ⟨_, exec_service_of_run_more hq (rxRun_payload s.rxq hs hlen hq hfit), ?cursor,
    fun j hj => storeBytes_read_stored _ _ hj, fun x hx => storeBytes_read_other _ hx, rfl⟩
  case cursor =>
    rw [BitVec.toNat_ofNat]
    omega

/-! ### A frame, up to its CHECKSUM byte -/

/-- The state once the header and the payload of a frame are received. -/
def State.received (s : State) (id ovh : Byte) (payload : List Byte) : State :=
  { s with
    rxq := [], rxbuf := storeBytes s.rxbuf 0 payload, pId := id, pOvh := ovh
    pLen := BitVec.ofNat 8 payload.length, pCur := BitVec.ofNat 8 payload.length, pState := .findChecksum }

section Received

variable {s : State} {payload : List Byte} (hs : s.pState = .findStart) (hpos : 1 ≤ payload.length)
  (hmax : payload.length ≤ 254)
include hs

/-- Noise before a byte list changes nothing for the run over the list. -/
theorem rxRun_noise_append {noise q : List Byte} (hnoise : ∀ b ∈ noise, b ≠ Config.START) (hq : q ≠ []) :
    rxRun (noise ++ q) s = rxRun q s := by
  rw [rxRun_append_of_more (rxRun_noise hs hnoise) hq, rxRun_setRxq hq]

/-- A header with a rejected length ends the call (R77). -/
theorem rxRun_badLength {len : Byte} (hlen : len = 0x00 ∨ len = 0xFF) (id ovh : Byte) (rest : List Byte) :
    rxRun ([Config.START, id, ovh, len] ++ rest) s =
      .term { s with rxq := rest, pId := id, pOvh := ovh, pState := .findStart } .payloadLengthError 0x00 := by
  rcases hlen with rfl | rfl <;>
    simp [rxRun, rxStep, hs, rxFindStart, rxFindId, rxFindOverhead, rxFindLength, Config.MAX_PAYLOAD]

include hpos hmax

/-- The header and the payload of a frame bring the parser to FindChecksum. -/
theorem rxRun_received (id ovh : Byte) :
    rxRun ([Config.START, id, ovh, BitVec.ofNat 8 payload.length] ++ payload) s =
      .more (s.received id ovh payload) := by
  have hlen : (BitVec.ofNat 8 payload.length).toNat = payload.length := by rw [BitVec.toNat_ofNat]; omega
  have hne : payload ≠ [] := List.ne_nil_of_length_pos hpos
  rw [List.cons_append, List.cons_append, List.cons_append, List.cons_append, List.nil_append,
    rxRun_header id ovh _ payload hs (by omega) (by omega), rxRun_payload payload rfl (by simp [hlen, hmax]) hne
      (by simp [hlen])]
  simp [State.received, hlen]

/-- The run over a frame is the run from FindChecksum over what follows the payload. -/
theorem rxRun_frame (id ovh : Byte) {q : List Byte} (hq : q ≠ []) :
    rxRun ([Config.START, id, ovh, BitVec.ofNat 8 payload.length] ++ payload ++ q) s =
      rxRun q (s.received id ovh payload) :=
  rxRun_append_of_more (rxRun_received hs hpos hmax id ovh) hq

end Received

/-! ### CHECKSUM and STOP (R79, R80) -/

section Trailer

variable (s : State) (id ovh : Byte) {payload : List Byte} (hmax : payload.length ≤ 254) (rest : List Byte)
include hmax

/-- The checksum is compared with that of the payload as received. -/
theorem rxStep_received (b : Byte) (q : List Byte) :
    rxStep { s.received id ovh payload with rxq := q } b =
      if b = checksumOf s.ct payload then .more { s.received id ovh payload with rxq := q, pState := .findStop }
      else .term { s.received id ovh payload with rxq := q, pState := .findStart } .checksumError 0x00 := by
  have hlen : (BitVec.ofNat 8 payload.length).toNat = payload.length := by rw [BitVec.toNat_ofNat]; omega
  rw [rxStep_of_findChecksum rfl (by simp [State.received, hlen, hmax])]
  simp only [State.received, hlen, storeBytes_bytes]

theorem rxRun_badChecksum {x : Byte} (hx : x ≠ checksumOf s.ct payload) :
    rxRun (x :: rest) (s.received id ovh payload) =
      .term { s.received id ovh payload with rxq := rest, pState := .findStart } .checksumError 0x00 := by
  have hstep := (rxStep_received s id ovh hmax x rest).trans (if_neg hx)
  rw [rxRun_cons_of_ne (by rw [hstep]; nofun), hstep]

/-- A good checksum brings the parser to FindStop. -/
theorem rxRun_checksum (x : Byte) :
    rxRun (checksumOf s.ct payload :: x :: rest) (s.received id ovh payload) =
      rxRun (x :: rest) { s.received id ovh payload with pState := .findStop } :=
  (rxRun_cons_more ((rxStep_received s id ovh hmax _ _).trans (if_pos rfl))).trans rfl

theorem rxRun_badStop {x : Byte} (hx : x ≠ Config.STOP) :
    rxRun (checksumOf s.ct payload :: x :: rest) (s.received id ovh payload) =
      .term { s.received id ovh payload with rxq := rest, pState := .findStart } .stopByteError 0x00 := by
  rw [rxRun_checksum s id ovh hmax]
  simp [rxRun, rxStep, rxFindStop, hx]

/-- A good STOP delivers the payload, destuffed from P_OVH. -/
theorem rxRun_delivered :
    rxRun (checksumOf s.ct payload :: Config.STOP :: rest) (s.received id ovh payload) =
      .term { s.received id ovh payload with
        rxq := rest, pState := .findStart, rxbuf := destuff (storeBytes s.rxbuf 0 payload) ovh } .newData
        (BitVec.ofNat 8 payload.length) := by
  rw [rxRun_checksum s id ovh hmax]
  simp [rxRun, rxStep, rxFindStop, State.received]

end Trailer

/-! ### A frame served at once -/

theorem storeBytes_zero_read (m : Memory) {l : List Byte} {j : Nat} (hj : j < l.length) :
    (storeBytes m 0 l).read j = l[j] := by
  simpa only [Nat.zero_add] using storeBytes_read_stored m 0 hj

/-- SERVICE on a frame that ends in an error after its payload. -/
theorem exec_service_of_run_error {s : State} {id ovh : Byte} {payload rest : List Byte} {st : Status}
    (hs : s.pState = .findStart)
    (hrun : rxRun s.rxq s = .term { s.received id ovh payload with rxq := rest, pState := .findStart } st 0x00) :
    ∃ t, exec .service s = .next t ∧
      (∀ j, (h : j < payload.length) → t.rxbuf.read j = payload[j]) ∧
      (∀ j, payload.length ≤ j → t.rxbuf.read j = s.rxbuf.read j) ∧
      t = { s with
        rxq := rest, rxbuf := t.rxbuf, pId := id, pOvh := ovh, pLen := BitVec.ofNat 8 payload.length
        pCur := BitVec.ofNat 8 payload.length, status := st, bytesRead := 0x00
        responses := s.responses ++ [(BitVec.setWidth 32 st.code <<< 8) ||| BitVec.setWidth 32 0x00#8] } := by
  refine ⟨_, exec_service_of_run_term hrun, fun j hj => storeBytes_zero_read s.rxbuf hj,
    fun j hj => storeBytes_read_other s.rxbuf (by omega), ?_⟩
  rw [hs]
  rfl

/-- Settles O39, by the byte that meets the error. -/
theorem frameErrorsAreRecorded : Obligations.FrameErrorsAreRecorded := by
  unfold Obligations.FrameErrorsAreRecorded
  refine fun s id ovh x payload rest hs => ⟨fun hx hrxq => ?length, fun hpos hmax hx hrxq => ?checksum,
    fun hpos hmax hx hrxq => ?stop⟩
  case length =>
    have hrun := (congrArg (rxRun · s) hrxq).trans (rxRun_badLength hs hx id ovh rest)
    rw [exec_service_of_run_term hrun, ← hs]
    rfl
  case checksum =>
    refine exec_service_of_run_error (st := .checksumError) hs ?_
    rw [hrxq, List.append_assoc]
    exact (rxRun_frame hs hpos hmax id ovh (by simp)).trans (rxRun_badChecksum s id ovh hmax rest hx)
  case stop =>
    refine exec_service_of_run_error (st := .stopByteError) hs ?_
    rw [hrxq, List.append_assoc]
    exact (rxRun_frame hs hpos hmax id ovh (by simp)).trans (rxRun_badStop s id ovh hmax rest hx)

/-- The response of NewData. -/
theorem newData_response (br : Byte) :
    (BitVec.setWidth 32 Status.newData.code <<< 8) ||| BitVec.setWidth 32 br =
      0x00000200#32 ||| BitVec.setWidth 32 br := rfl

/-- The run over a well-formed frame and what follows it. -/
theorem rxRun_wellFormed {s : State} {payload : List Byte} (hs : s.pState = .findStart) (hpos : 1 ≤ payload.length)
    (hmax : payload.length ≤ 254) (id ovh : Byte) (rest : List Byte) :
    rxRun (frameBytes id ovh (BitVec.ofNat 8 payload.length) payload (checksumOf s.ct payload) ++ rest) s =
      .term { s.received id ovh payload with
        rxq := rest, pState := .findStart, rxbuf := destuff (storeBytes s.rxbuf 0 payload) ovh } .newData
        (BitVec.ofNat 8 payload.length) := by
  rw [frameBytes, List.append_assoc]
  exact (rxRun_frame hs hpos hmax id ovh (by simp)).trans (rxRun_delivered s id ovh hmax rest)

/-- Settles O40: noise is dropped, and the frame behind it is delivered. -/
theorem wellFormedFrameAfterNoiseIsDelivered : Obligations.WellFormedFrameAfterNoiseIsDelivered := by
  unfold Obligations.WellFormedFrameAfterNoiseIsDelivered
  intro s noise payload rest id ovh hs hnoise hpos hmax hrxq
  have hstream : s.rxq =
      noise ++ (frameBytes id ovh (BitVec.ofNat 8 payload.length) payload (checksumOf s.ct payload) ++ rest) := by
    rw [hrxq, frameBytes]
    simp only [List.append_assoc]
    rfl
  have hrun := (congrArg (rxRun · s) hstream).trans
    ((rxRun_noise_append hs hnoise (by simp [frameBytes])).trans (rxRun_wellFormed hs hpos hmax id ovh rest))
  have hlen : BitVec.setWidth 32 (BitVec.ofNat 8 payload.length) = BitVec.ofNat 32 payload.length :=
    BitVec.setWidth_ofNat_of_le_of_lt (by decide) (by omega)
  refine ⟨_, storeBytes s.rxbuf 0 payload, exec_service_of_run_term hrun,
    fun j hj => storeBytes_zero_read s.rxbuf hj, fun j hj => storeBytes_read_other s.rxbuf (by omega), ?_⟩
  rw [newData_response, hlen, hs]
  rfl

/-! ### Loopback (R84) -/

/-- A run over two lists that ends with RXQ empty goes on after the first. -/
theorem rxRun_append_of_drained {p q : List Byte} {s u : State} {st : Status} {br : Byte}
    (h : rxRun (p ++ q) s = .term u st br) (hu : u.rxq = []) (hq : q ≠ []) :
    ∃ s', rxRun p s = .more s' ∧ rxRun q s' = .term u st br := by
  obtain ⟨c, l, rfl⟩ := List.exists_cons_of_ne_nil hq
  rw [rxRun_append] at h
  cases hr : rxRun p s with
  | more s' =>
    rw [hr] at h
    exact ⟨s', rfl, h⟩
  | term s' t' br' =>
    rw [hr] at h
    obtain ⟨rfl, _, _⟩ := RxResult.term.inj h
    simp at hu
  | abort s' => rw [hr] at h; nomatch h
  | outside => rw [hr] at h; nomatch h

/-- What the last of the SERVICEs leaves, where the run over all the pieces ends in u with the outcome st. -/
structure ServedInPieces (s u : State) (n : Nat) (st : Status) (br : Byte) (v : State) : Prop where
  responses : v.responses = s.responses ++ List.replicate n 0x00000300#32 ++ [rspWord false st.code br]
  status : v.status = st
  bytesRead : v.bytesRead = br
  pId : v.pId = u.pId
  pState : v.pState = u.pState
  rxbuf : v.rxbuf = u.rxbuf
  rxq : v.rxq = []

/-- The response of Continue. -/
theorem rspWord_continuing : rspWord false Status.continuing.code 0x00 = 0x00000300#32 := by decide

theorem serviceArrivals_cons {p : List Byte} {ps : List (List Byte)} {s t : State}
    (h : exec .service (s.linkIn p) = .next t) : serviceArrivals (p :: ps) s = serviceArrivals ps t := by
  rw [serviceArrivals, h]

/-- SERVICE on one piece that has just arrived at an empty RXQ. -/
theorem exec_service_linkIn {s : State} {p : List Byte} (hs : s.rxq = []) (hp : p ≠ []) :
    exec .service (s.linkIn p) = (rxRun p s).finish := by
  rw [exec, State.linkIn, hs, List.nil_append, execService_setRxq hp]

/-- A stream carried in pieces, a SERVICE after each: all but the last answer Continue, and the last ends as the run
over the whole does. -/
theorem serviceArrivals_pieces {pieces : List (List Byte)} {last : List Byte} {s u : State} {st : Status} {br : Byte}
    (hpieces : ∀ p ∈ pieces, p ≠ []) (hlast : last ≠ []) (hs : s.rxq = [])
    (hrun : rxRun (pieces.flatten ++ last) s = .term u st br) (hu : u.rxq = []) :
    ∃ v, serviceArrivals (pieces ++ [last]) s = .next v ∧ ServedInPieces s u pieces.length st br v := by
  induction pieces generalizing s u with
  | nil =>
    have hstate := rxRun_state last s
    rw [List.flatten_nil, List.nil_append] at hrun
    rw [hrun] at hstate
    have hresp : u.responses = s.responses := by rw [hstate.1]; rfl
    refine ⟨_, serviceArrivals_cons ((exec_service_linkIn hs hlast).trans (congrArg _ hrun)),
      ⟨?_, rfl, rfl, rfl, rfl, rfl, hu⟩⟩
    rw [State.finishService_responses, hresp, List.length_nil, List.replicate_zero, List.append_nil]
  | cons p ps ih =>
    have hp : p ≠ [] := hpieces p List.mem_cons_self
    rw [List.flatten_cons, List.append_assoc] at hrun
    obtain ⟨s', hfirst, hrest⟩ :=
      rxRun_append_of_drained hrun hu (List.append_ne_nil_of_right_ne_nil _ hlast)
    have hdrained : s'.rxq = [] := by
      have hstate := rxRun_state p s
      rw [hfirst] at hstate
      obtain ⟨_, _, _, hempty, _⟩ := hstate
      exact hempty hp
    have hnext := rxRun_over_of_term (s'.finishService .continuing 0x00) hrest
    obtain ⟨v, hv, hserved⟩ := ih (s := s'.finishService .continuing 0x00)
      (fun p' hp' => hpieces p' (List.mem_cons_of_mem _ hp')) hdrained hnext hu
    refine ⟨v, (serviceArrivals_cons ((exec_service_linkIn hs hp).trans (congrArg _ hfirst))).trans hv,
      { hserved with responses := ?_ }⟩
    rw [hserved.responses, State.finishService_responses, rxRun_more_responses hfirst, rspWord_continuing,
      List.length_cons, List.replicate_succ]
    simp only [List.append_assoc, List.cons_append, List.nil_append]

/-- The frame that SEND of a whole payload builds is well formed. -/
theorem State.sendFrame_of_le {s : State} {len : Byte} (hmax : len.toNat ≤ 254) (id : Byte) :
    s.sendFrame len id = frameBytes id (computeOverhead s.txbuf len.toNat)
      (BitVec.ofNat 8 (s.sentPayload len.toNat).length) (s.sentPayload len.toNat)
      (checksumOf s.ct (s.sentPayload len.toNat)) := by
  have hclamp : clampLen len = len.toNat := Nat.min_eq_left hmax
  rw [State.sendFrame_eq, hclamp, s.sentPayload_length]

/-- The payload a frame carries, destuffed from the frame's OVERHEAD, is the one SEND found in TXBUF. -/
theorem destuff_sentPayload_read (s : State) (m : Memory) {n x : Nat} (hn : n ≤ 254) (hx : x < n) :
    (destuff (storeBytes m 0 (s.sentPayload n)) (computeOverhead s.txbuf n)).read x = s.txbuf.read x := by
  have hstored : ∀ y, y < n → (storeBytes m 0 (s.sentPayload n)).read y = (stuff s.txbuf n).read y := by
    intro y hy
    have hy' : y < (s.sentPayload n).length := by rwa [s.sentPayload_length]
    rw [storeBytes_zero_read m hy']
    exact Memory.bytes_getElem ..
  rw [destuff_read_of_stuffed hn hstored, if_pos hx]

/-- Settles O42: the frame SEND builds is well formed, and destuffing its payload from its overhead gives TXBUF. -/
theorem loopbackDeliversThePayload : Obligations.LoopbackDeliversThePayload := by
  unfold Obligations.LoopbackDeliversThePayload
  intro len id s hpos hmax hs hrxq hok
  obtain ⟨t, ht, _, htxq, _⟩ := exec_send_ok len id hok
  obtain ⟨hct, htrxq, _, htpState, _⟩ := exec_send_sameReceivePath ht
  refine ⟨t, _, ht, htxq, fun pieces last hpieces hlast hflat => ?_⟩
  have hlength : (s.sentPayload len.toNat).length = len.toNat := s.sentPayload_length _
  have hrun := rxRun_wellFormed (payload := s.sentPayload len.toNat) (htpState.symm.trans hs) (by omega) (by omega) id
    (computeOverhead s.txbuf len.toNat) []
  rw [← hct, ← State.sendFrame_of_le hmax id, List.append_nil, ← hflat] at hrun
  obtain ⟨u, hu, hserved⟩ := serviceArrivals_pieces hpieces hlast (htrxq.symm.trans hrxq) hrun rfl
  have hbytes : BitVec.ofNat 8 (s.sentPayload len.toNat).length = len := by rw [hlength]; simp
  refine ⟨u, hu, ?_, hserved.status, hserved.bytesRead.trans hbytes, hserved.pId, hserved.pState, hserved.rxq,
    fun x hx => ?_⟩
  · rw [hserved.responses, hbytes, rspWord_service, newData_response]
  · rw [hserved.rxbuf]
    exact destuff_sentPayload_read s t.rxbuf hmax hx

end Sys2Proof.Machine
